-- ==== Sys2Proof/Word.lean ====
section
/-! DEFINITION. The word types of the engine: the byte every internal value is (R10, R153), the 32-bit word of a host
access and of a command (R52, R80), and the 16-byte block (R8). -/

namespace Sys2Proof

/-- A byte: an 8-bit unsigned value (R10). -/
abbrev Byte := BitVec 8

/-- A 32-bit word: one host access (R52), one command word (R80). -/
abbrev Word := BitVec 32

/-- A block: 16 bytes, indexed from 0 (R8, R62). Element 0 is the first byte. -/
abbrev Block := Vector Byte 16

end Sys2Proof
end

