-- ==== Sys2Proof/Syntax.lean ====
section
/-! DEFINITION. The engine's commands as syntax: one constructor per row of spec/opcode_table.json, the four fields of a
command word (R80), and the names under which the decoder rejects a word (R84, R85). -/

namespace Sys2Proof

/-- The three commands (R82). Only UPDATE has an operand, the message byte in DATA (R81). -/
inductive Instr where
  | init
  | update (b : Byte)
  | final
  deriving DecidableEq, Repr

/-- The fields of a command word (R80), most significant first. -/
structure CommandFields where
  rsvh : BitVec 16
  op   : BitVec 4
  rsvm : BitVec 4
  data : Byte
  deriving DecidableEq, Repr

/-- Why a word is no legal command: the conditions of R84, one name each. -/
inductive Illegal where
  /-- RSVH is not 0. -/
  | reservedHigh
  /-- RSVM is not 0. -/
  | reservedMid
  /-- OP is 0x0 or 0x4..0xF. -/
  | reservedOp
  /-- DATA is not 0 on INIT or FINAL. -/
  | dataNotZero
  deriving DecidableEq, Repr

end Sys2Proof
end

