-- ==== Sys2Proof/WellFormed.lean ====
section
/-! DEFINITION. Which command fields are legal (R84), and which instructions are well formed (all of them: R81 makes every
byte value a legal operand). -/

namespace Sys2Proof

/-- R84: a command word is legal exactly when all four conditions hold. -/
abbrev CommandFields.Legal (f : CommandFields) : Prop :=
  f.rsvh = 0 ∧ f.rsvm = 0 ∧ (f.op = 1 ∨ f.op = 2 ∨ f.op = 3) ∧ ((f.op = 1 ∨ f.op = 3) → f.data = 0)

/-- R81: the DATA byte is taken as it is and all 256 values are legal message bytes. The operand's type already bounds it,
so every instruction is well formed. -/
abbrev Instr.WellFormed (i : Instr) : Prop :=
  match i with
  | .init => True
  | .update b => b.toNat ≤ 0xFF
  | .final => True

end Sys2Proof
end

