-- ==== Sys2Proof/Decode.lean ====
section
/-! DEFINITION. The decoder, total on 32-bit words and rejecting by name (R86), and the encoder, written from the encoding
tables R80 and R82. -/

namespace Sys2Proof

/-- R81: the fields of a command word. -/
def CommandFields.ofWord (c : Word) : CommandFields where
  rsvh := c.extractLsb' 16 16
  op   := c.extractLsb' 12 4
  rsvm := c.extractLsb' 8 4
  data := c.extractLsb' 0 8

/-- R80: the word with the given fields, `0000000000000000 oooo 0000 dddddddd` when the reserved ones are 0. -/
def CommandFields.toWord (f : CommandFields) : Word :=
  f.rsvh ++ f.op ++ f.rsvm ++ f.data

/-- R86: decoding, a total function of the word that reads no engine state. -/
def decode (c : Word) : Except Illegal Instr :=
  let f := CommandFields.ofWord c
  if f.rsvh ≠ 0 then .error .reservedHigh
  else if f.rsvm ≠ 0 then .error .reservedMid
  else if f.op = 1 then (if f.data = 0 then .ok .init else .error .dataNotZero)
  else if f.op = 2 then .ok (.update f.data)
  else if f.op = 3 then (if f.data = 0 then .ok .final else .error .dataNotZero)
  else .error .reservedOp

/-- R82: the fields of each command. -/
def Instr.fields (i : Instr) : CommandFields :=
  match i with
  | .init     => { rsvh := 0, op := 1, rsvm := 0, data := 0 }
  | .update b => { rsvh := 0, op := 2, rsvm := 0, data := b }
  | .final    => { rsvh := 0, op := 3, rsvm := 0, data := 0 }

/-- The command word of an instruction (R80, R82). -/
def encode (i : Instr) : Word := i.fields.toWord

/-- The instruction the decoder reads from the `nbits` low bits of `w`. A command is exactly one 32-bit word (R80, R87), so
bits above `nbits` are 0 and anything longer than one word is refused: DESIGN CHOICE, safe
(notes/assumptions/13.md). -/
def decodeTableWord (nbits w : Nat) : Option Instr :=
  if nbits ≤ 32 then (decode (BitVec.ofNat 32 (w % 2 ^ nbits))).toOption else none

end Sys2Proof
end

