-- ==== Sys2Proof/Machine/State.lean ====
section
/-! DEFINITION. The state of one engine as R20 lists it, the fault log R213 asks of a model, the host's accesses still to
come, and the state after reset (R37, R240). -/

namespace Sys2Proof.Machine

/-- One element of a data register: a byte, or the spec's ⊥, "holds no value" (R11, R12). -/
inductive Elem where
  /-- ⊥: what reset leaves in every element of STATE, CKSUM and BUF (R37). A computation that reads it faults (R12).
  DEDUCED, safe (notes/assumptions/1.md). -/
  | bot
  /-- A byte that some rule wrote. -/
  | byte (b : Byte)
  deriving DecidableEq, Repr

/-- A data register: 16 elements of 8 bits, indexed from 0 (R20, R62). -/
abbrev DataReg := Vector Elem 16

/-- LC, the lifecycle register (R25). The reserved code 0b11 is produced by no rule and has no constructor (U12); DEDUCED, safe
(notes/assumptions/14.md). -/
inductive Lifecycle where
  /-- No INIT accepted since reset. -/
  | uninit
  /-- INIT accepted, FINAL not yet accepted. -/
  | active
  /-- FINAL accepted: the digest is in STATE. -/
  | finalized
  deriving DecidableEq, Repr

/-- The causes a fault can record (R201). FCAUSE holds one of them, or NONE; codes 5..7 are produced by no rule (U12). -/
inductive Cause where
  /-- Code 1: an illegal word was written to CMD. -/
  | illegalCmd
  /-- Code 2: UPDATE or FINAL while LC = UNINIT. -/
  | uninitUse
  /-- Code 3: UPDATE or FINAL while LC = FINALIZED. -/
  | afterFinal
  /-- Code 4: any CMD write while BUSY = 1. -/
  | cmdWhileBusy
  deriving DecidableEq, Repr

/-- The state of one engine: exactly the rows of R20. -/
structure Engine where
  /-- STATE, the mixing register (R21). -/
  state  : DataReg
  /-- CKSUM, the checksum accumulator (R22). -/
  cksum  : DataReg
  /-- BUF, the staging buffer (R23). -/
  buf    : DataReg
  /-- BLEN, the count of staged bytes (R24). -/
  blen   : BitVec 4
  /-- LC (R25). -/
  lc     : Lifecycle
  /-- BUSY (R26). -/
  busy   : Bool
  /-- FAULT (R27). -/
  fault  : Bool
  /-- FCAUSE (R28); `none` is the code NONE. -/
  fcause : Option Cause
  deriving DecidableEq, Repr

/-- One host access of the register window: always 32 bits (R52). `addr` holds the address bits the engine sees, [4:0]
(R51); the data of a read is recorded in `State.reads`. -/
inductive HostAccess where
  | read (addr : BitVec 5)
  | write (addr : BitVec 5) (v : Word)
  deriving DecidableEq, Repr

/-- One turn of an agent (R7, R66). -/
inductive Input where
  /-- The host performs one access. -/
  | access (a : HostAccess)
  /-- The host runs the loop WAITIDLE (R89). `polls` of its STATUS reads come before the engine's completion step. -/
  | waitIdle (polls : Nat)
  /-- The engine's turn: its completion step if that is enabled (R102). -/
  | engineTurn
  /-- The platform asserts reset (R240). -/
  | reset
  /-- The platform loses power and comes back, which counts as reset (R224). -/
  | powerLoss
  /-- A host other than the one that owns this engine makes an access: outside the spec (R222, U18). -/
  | otherHost (a : HostAccess)
  /-- The platform lets a host access overlap reset: outside the spec (R240, U19). -/
  | accessDuringReset (a : HostAccess)
  deriving DecidableEq, Repr

/-- The machine: one engine and what a model keeps beside it. -/
structure State where
  /-- The hardware's registers (R20). -/
  engine   : Engine
  /-- The fault log of R213: every recorded cause, oldest first; no step removes one. -/
  faultLog : List Cause
  /-- The MODEL's own, DESIGN CHOICE, safe (notes/assumptions/5.md): the message (R14), the bytes of the UPDATEs accepted since
  the last accepted INIT. Nothing reads it. -/
  message  : List Byte
  /-- The MODEL's own, DESIGN CHOICE, safe (notes/assumptions/4.md): the words the host's reads have returned, oldest first. -/
  reads    : List Word
  /-- The MODEL's own, DESIGN CHOICE, unsafe (notes/assumptions/2.md): the turns still to come, in order (R66). -/
  inputs   : List Input
  deriving DecidableEq, Repr

/-- Why a step stops with a fault. A hardware fault (R200) is no such stop: it is recorded in FAULT and the engine goes on. -/
inductive Fault where
  /-- A computation read an element that holds ⊥ (R12, U5). Raised by the transform of UPDATE and FINAL and by a DIGEST read;
  no path from reset reaches it (R34, R35). Safe: the model stops and gives no value. -/
  | bottomRead
  deriving DecidableEq, Repr

/-- Why a step is refused: runs outside the spec. -/
inductive Refusal where
  /-- An instruction that has no meaning yet; raised only by an arm of `exec`. Safe. -/
  | notModelled (mnemonic : String)
  /-- Two hosts use one engine: "a model refuses it" (R222, U18). Raised by the input `otherHost`. Safe. -/
  | otherHost
  /-- A host access overlaps reset: "a model refuses that run" (D27, U19). Raised by the input `accessDuringReset`. Safe. -/
  | accessDuringReset
  /-- A bus address lies in no engine's window (R51); the platform decides what then happens. Raised only by
  Machine/Platform.lean. Safe. -/
  | outsideWindow
  deriving DecidableEq, Repr

/-- Every element of the data registers holds ⊥ after reset (R37). -/
def DataReg.allBot : DataReg := Vector.replicate 16 .bot

/-- The reset state of an engine (R37, R240). -/
def Engine.reset : Engine where
  state  := DataReg.allBot
  cksum  := DataReg.allBot
  buf    := DataReg.allBot
  blen   := 0
  lc     := .uninit
  busy   := false
  fault  := false
  fcause := none

/-- The machine right after reset: the engine as R37 says, no fault recorded, nothing read, no access to come. The values of
the fields beside the engine are a DESIGN CHOICE, unsafe (notes/assumptions/11.md). -/
def State.reset : State where
  engine   := Engine.reset
  faultLog := []
  message  := []
  reads    := []
  inputs   := []

end Sys2Proof.Machine
end

