-- ==== Sys2Proof/Machine/Operands.lean ====
section
/-! DEFINITION. How a command's operands are read and written: the elements of the data registers with the ⊥ check of R12,
the staging buffer at BLEN (R115), and FINAL's padding (R120, R121). -/

namespace Sys2Proof.Machine

/-- The byte an element holds; none for ⊥ (R12). -/
def Elem.value (e : Elem) : Option Byte :=
  match e with
  | .bot => none
  | .byte b => some b

/-- The bytes of a list of elements; none if any element holds ⊥. -/
def elemBytes (l : List Elem) : Option (List Byte) :=
  match l with
  | [] => some []
  | e :: es =>
    match e.value, elemBytes es with
    | some b, some bs => some (b :: bs)
    | _, _ => none

theorem elemBytes_length (l : List Elem) : ∀ bs : List Byte, elemBytes l = some bs → bs.length = l.length := by
  induction l with
  | nil => simp [elemBytes]
  | cons e es ih =>
    intro bs h
    unfold elemBytes at h
    split at h
    · next heq => cases h; simpa using ih _ heq
    · cases h

/-- Reading a whole data register as a block. R12: none (the computation faults) if any element holds ⊥; no value is
substituted for it. -/
def readBlock (r : DataReg) : Option Block :=
  match h : elemBytes r.toList with
  | some bs => some ⟨bs.toArray, by simpa using elemBytes_length _ bs h⟩
  | none => none

/-- A data register that holds the given block. -/
def ofBlock (m : Block) : DataReg := m.map Elem.byte

/-- `BUF[BLEN] <- b` (R115). BLEN is always in 0..15 (R24), so the element exists. -/
def stageByte (buf : DataReg) (blen : BitVec 4) (b : Byte) : DataReg :=
  buf.set blen.toNat (.byte b) blen.isLt

/-- `p = 16 - BLEN`, in 1..16 (R121). -/
def padLength (blen : BitVec 4) : Nat := 16 - blen.toNat

/-- FINAL's padding: `BUF[i] <- p` for i in BLEN..15 (R120); the elements below BLEN stay. -/
def padBuffer (buf : DataReg) (blen : BitVec 4) : DataReg :=
  buf.mapFinIdx fun i e _ => if i < blen.toNat then e else .byte (BitVec.ofNat 8 (padLength blen))

end Sys2Proof.Machine
end

