-- ==== Sys2Proof/Machine/Ops.lean ====
section
/-! DEFINITION. The named operations the commands share: recording a fault (R202), the checks of the dispatch (R100), the
acceptance of a command, the completion step (R102), reset (R240), and recording what a host read returned. -/

namespace Sys2Proof.Machine

/-- R202: the first cause is kept; with FAULT = 1 already, nothing changes. -/
def Engine.recordFault (e : Engine) (c : Cause) : Engine :=
  if e.fault then e else { e with fault := true, fcause := some c }

/-- `raise Fault(c)` (R202), the one way a fault is taken: no control is transferred (R200). Every call appends its cause
to the model's fault log, even when FAULT = 1 already (R213). -/
def raiseFault (c : Cause) (s : State) : State :=
  { s with engine := s.engine.recordFault c, faultLog := s.faultLog ++ [c] }

/-- The first check of R100: a CMD write while BUSY = 1 is discarded with CMD_WHILE_BUSY. -/
def whenIdle (s : State) (k : State → Host.Outcome State Fault Refusal) : Host.Outcome State Fault Refusal :=
  if s.engine.busy then .next (raiseFault .cmdWhileBusy s) else k s

/-- The checks of R100 that UPDATE and FINAL pass and INIT does not: FAULT = 1 discards silently, LC = UNINIT and
LC = FINALIZED discard with a cause. -/
def whenActive (s : State) (k : State → Host.Outcome State Fault Refusal) : Host.Outcome State Fault Refusal :=
  if s.engine.fault then .next s
  else
    match s.engine.lc with
    | .uninit => .next (raiseFault .uninitUse s)
    | .finalized => .next (raiseFault .afterFinal s)
    | .active => k s

/-- The end of R100: the command's effect on the engine is committed in its acceptance step (R101) and `BUSY <- 1`. An
effect that had to read ⊥ is none, and the model faults (R12). That the whole effect comes in one step is DEDUCED, safe
(notes/assumptions/6.md). -/
def accept (s : State) (effect : Option Engine) (message : List Byte) : Host.Outcome State Fault Refusal :=
  match effect with
  | some e => .next { s with engine := { e with busy := true }, message := message }
  | none => .fault .bottomRead

/-- The completion step (R102): `BUSY <- 0` and nothing else. -/
def complete (s : State) : State :=
  { s with engine := { s.engine with busy := false } }

/-- A turn of the engine: the completion step is enabled exactly when BUSY = 1 (R102); an idle engine holds all its state
(R224). That such a turn is used up is a DESIGN CHOICE, safe (notes/assumptions/3.md). -/
def engineTurn (s : State) : State :=
  if s.engine.busy then complete s else s

/-- Reset (R240): the engine goes to the reset state of R37 and an open busy period is abandoned. The fault log keeps its
entries (R213). After reset no UPDATE has been accepted, so the message is empty. DEDUCED, safe
(notes/assumptions/12.md). -/
def resetEngine (s : State) : State :=
  { s with engine := Engine.reset, message := [] }

/-- What a host read returned. -/
def recordRead (s : State) (v : Word) : State :=
  { s with reads := s.reads ++ [v] }

/-- Puts an input back at the head of the list: the host goes round its loop again. -/
def pushInput (s : State) (i : Input) : State :=
  { s with inputs := i :: s.inputs }

end Sys2Proof.Machine
end

