-- ==== Sys2Proof/Machine/Transform.lean ====
section
/-! DEFINITION. The block transform (42_block_transform.md): the substitution table S, the state mixing Mix, the checksum
fold Fold, and the transform of an engine's STATE and CKSUM. -/

namespace Sys2Proof.Machine

/-- Rows 0x00 to 0x70 of the substitution table (R150). -/
def sboxLow : List (List Byte) := [
  [0x29, 0x2E, 0x43, 0xC9, 0xA2, 0xD8, 0x7C, 0x01, 0x3D, 0x36, 0x54, 0xA1, 0xEC, 0xF0, 0x06, 0x13],
  [0x62, 0xA7, 0x05, 0xF3, 0xC0, 0xC7, 0x73, 0x8C, 0x98, 0x93, 0x2B, 0xD9, 0xBC, 0x4C, 0x82, 0xCA],
  [0x1E, 0x9B, 0x57, 0x3C, 0xFD, 0xD4, 0xE0, 0x16, 0x67, 0x42, 0x6F, 0x18, 0x8A, 0x17, 0xE5, 0x12],
  [0xBE, 0x4E, 0xC4, 0xD6, 0xDA, 0x9E, 0xDE, 0x49, 0xA0, 0xFB, 0xF5, 0x8E, 0xBB, 0x2F, 0xEE, 0x7A],
  [0xA9, 0x68, 0x79, 0x91, 0x15, 0xB2, 0x07, 0x3F, 0x94, 0xC2, 0x10, 0x89, 0x0B, 0x22, 0x5F, 0x21],
  [0x80, 0x7F, 0x5D, 0x9A, 0x5A, 0x90, 0x32, 0x27, 0x35, 0x3E, 0xCC, 0xE7, 0xBF, 0xF7, 0x97, 0x03],
  [0xFF, 0x19, 0x30, 0xB3, 0x48, 0xA5, 0xB5, 0xD1, 0xD7, 0x5E, 0x92, 0x2A, 0xAC, 0x56, 0xAA, 0xC6],
  [0x4F, 0xB8, 0x38, 0xD2, 0x96, 0xA4, 0x7D, 0xB6, 0x76, 0xFC, 0x6B, 0xE2, 0x9C, 0x74, 0x04, 0xF1]]

/-- Rows 0x80 to 0xF0 of the substitution table (R150). -/
def sboxHigh : List (List Byte) := [
  [0x45, 0x9D, 0x70, 0x59, 0x64, 0x71, 0x87, 0x20, 0x86, 0x5B, 0xCF, 0x65, 0xE6, 0x2D, 0xA8, 0x02],
  [0x1B, 0x60, 0x25, 0xAD, 0xAE, 0xB0, 0xB9, 0xF6, 0x1C, 0x46, 0x61, 0x69, 0x34, 0x40, 0x7E, 0x0F],
  [0x55, 0x47, 0xA3, 0x23, 0xDD, 0x51, 0xAF, 0x3A, 0xC3, 0x5C, 0xF9, 0xCE, 0xBA, 0xC5, 0xEA, 0x26],
  [0x2C, 0x53, 0x0D, 0x6E, 0x85, 0x28, 0x84, 0x09, 0xD3, 0xDF, 0xCD, 0xF4, 0x41, 0x81, 0x4D, 0x52],
  [0x6A, 0xDC, 0x37, 0xC8, 0x6C, 0xC1, 0xAB, 0xFA, 0x24, 0xE1, 0x7B, 0x08, 0x0C, 0xBD, 0xB1, 0x4A],
  [0x78, 0x88, 0x95, 0x8B, 0xE3, 0x63, 0xE8, 0x6D, 0xE9, 0xCB, 0xD5, 0xFE, 0x3B, 0x00, 0x1D, 0x39],
  [0xF2, 0xEF, 0xB7, 0x0E, 0x66, 0x58, 0xD0, 0xE4, 0xA6, 0x77, 0x72, 0xF8, 0xEB, 0x75, 0x4B, 0x0A],
  [0x31, 0x44, 0x50, 0xB4, 0x8F, 0xED, 0x1F, 0x1A, 0xDB, 0x99, 0x8D, 0x33, 0x9F, 0x11, 0x83, 0x14]]

/-- The substitution table, a constant (R30): entry `S[16*r + c]` is in row r, column c (R150). Its bytes
are the spec's, which marks them as general knowledge: DEDUCED, safe (notes/assumptions/16.md). -/
def sboxRows : List (List Byte) := sboxLow ++ sboxHigh

/-- `S[i]` (R150). An index is a byte, so it is always inside the table (R149). -/
def sbox (i : Byte) : Byte := (sboxRows.getD (i.toNat / 16) []).getD (i.toNat % 16) 0

/-- R141: the 48-byte working buffer, a copy of X, then M, then their XOR. -/
def mixStart (x m : List Byte) : List Byte := x ++ m ++ List.zipWith (fun a b => a ^^^ b) m x

/-- The bytes of one round (R142): strictly in increasing k, `W[k] <- W[k] XOR S[t]; t <- W[k]`. The first argument is the
part of W still to come, the second is t; the result is that part rewritten, and the last t. -/
def mixBytes (w : List Byte) (t : Byte) : List Byte × Byte :=
  match w with
  | [] => ([], t)
  | b :: rest =>
    let b' := b ^^^ sbox t
    let r := mixBytes rest b'
    (b' :: r.1, r.2)

/-- Round j (R142): all bytes of W, then `t <- (t + j) mod 256`. -/
def mixRound (p : List Byte × Byte) (j : Nat) : List Byte × Byte :=
  let r := mixBytes p.1 p.2
  (r.1, r.2 + BitVec.ofNat 8 j)

theorem mixBytes_length (w : List Byte) : ∀ t : Byte, (mixBytes w t).1.length = w.length := by
  induction w with
  | nil => simp [mixBytes]
  | cons b rest ih => intro t; simp [mixBytes, ih]

theorem mixRounds_length (js : List Nat) :
    ∀ p : List Byte × Byte, (js.foldl mixRound p).1.length = p.1.length := by
  induction js with
  | nil => simp
  | cons j rest ih => intro p; simp [ih, mixRound, mixBytes_length]

/-- The first 16 bytes of W after 18 rounds, round index 0..17, with t = 0 before round 0 (R142, R143, R145). -/
def mixList (x m : List Byte) : List Byte :=
  ((List.range 18).foldl mixRound (mixStart x m, 0)).1.take 16

theorem mixList_length (x m : Block) : (mixList x.toList m.toList).length = 16 := by
  simp [mixList, mixRounds_length, mixStart]

/-- `Mix(X, M)` (R141 to R145). -/
def mix (x m : Block) : Block := ⟨(mixList x.toList m.toList).toArray, by simpa using mixList_length x m⟩

/-- The steps of the fold (R146): strictly in increasing i, `C[i] <- C[i] XOR S[M[i] XOR L]; L <- C[i]`. -/
def foldBytes (c m : List Byte) (l : Byte) : List Byte :=
  match c, m with
  | ci :: cs, mi :: ms =>
    let c' := ci ^^^ sbox (mi ^^^ l)
    c' :: foldBytes cs ms c'
  | _, _ => []

theorem foldBytes_length (c : List Byte) :
    ∀ (m : List Byte) (l : Byte), c.length = m.length → (foldBytes c m l).length = c.length := by
  induction c with
  | nil => simp [foldBytes]
  | cons ci cs ih =>
    intro m l h
    cases m with
    | nil => simp at h
    | cons mi ms => simpa [foldBytes] using ih ms _ (by simpa using h)

/-- `Fold(C, M)` (R146). The carry L starts at C[15], recomputed in every fold (R31, R147). -/
def fold (ck m : Block) : Block :=
  ⟨(foldBytes ck.toList m.toList ck[15]).toArray, by simpa using foldBytes_length ck.toList m.toList ck[15] (by simp)⟩

/-- The pure transform `(Mix(X, M), Fold(C, M))` (R140). Neither part reads the other's output (R148). -/
def transform (x ck m : Block) : Block × Block := (mix x m, fold ck m)

/-- `Transform(M)` on an engine (R140): STATE and CKSUM are read before either is written, and nothing else changes. None
if an element read holds ⊥ (R12). -/
def Engine.transform (e : Engine) (m : Block) : Option Engine :=
  match readBlock e.state, readBlock e.cksum with
  | some x, some ck => some { e with state := ofBlock (mix x m), cksum := ofBlock (fold ck m) }
  | _, _ => none

end Sys2Proof.Machine
end

