-- ==== Sys2Proof/Machine/Commands.lean ====
section
/-! DEFINITION. The three commands (41_engine_commands.md): the effect of each on the engine, and its meaning with the
checks of the dispatch (R100). -/

namespace Sys2Proof.Machine

/-- A data register of 16 zero bytes, `0^16`. -/
def zeroReg : DataReg := ofBlock (Vector.replicate 16 0)

/-- `do_INIT` (R110). BUF is not written (D16). -/
def doInit (e : Engine) : Engine :=
  { e with state := zeroReg, cksum := zeroReg, blen := 0, lc := .active, fault := false, fcause := none }

/-- `do_UPDATE(b)` (R115): the 16th byte of a block runs the transform in the same command. -/
def doUpdate (b : Byte) (e : Engine) : Option Engine :=
  let e1 := { e with buf := stageByte e.buf e.blen b }
  if e.blen = 15 then
    (readBlock e1.buf).bind fun m => (e1.transform m).map fun e2 => { e2 with blen := 0 }
  else some { e1 with blen := e.blen + 1 }

/-- `do_FINAL` (R120): pad, transform the padded block, then transform the snapshot of CKSUM that the first transform left
(R123). -/
def doFinal (e : Engine) : Option Engine :=
  let e1 := { e with buf := padBuffer e.buf e.blen }
  (readBlock e1.buf).bind fun m =>
    (e1.transform m).bind fun e2 =>
      (readBlock e2.cksum).bind fun c =>
        (e2.transform c).map fun e3 => { e3 with blen := 0, lc := .finalized }

/-- INIT (R110, R111): accepted whenever the engine is not busy, also while FAULT = 1. -/
def execInit (s : State) : Host.Outcome State Fault Refusal :=
  whenIdle s fun s => accept s (some (doInit s.engine)) []

/-- UPDATE (R115). -/
def execUpdate (b : Byte) (s : State) : Host.Outcome State Fault Refusal :=
  whenIdle s fun s => whenActive s fun s => accept s (doUpdate b s.engine) (s.message ++ [b])

/-- FINAL (R120). -/
def execFinal (s : State) : Host.Outcome State Fault Refusal :=
  whenIdle s fun s => whenActive s fun s => accept s (doFinal s.engine) s.message

/-- A word that decodes to no command (R85): ILLEGAL_CMD, unless the engine is busy, which takes priority (R100). -/
def discardIllegal (s : State) : Host.Outcome State Fault Refusal :=
  whenIdle s fun s => .next (raiseFault .illegalCmd s)

end Sys2Proof.Machine
end

