-- ==== Sys2Proof/Machine/Dispatch.lean ====
section
/-! DEFINITION. The dispatch: one arm per constructor of Instr, each one direct call of that command's meaning. -/

namespace Sys2Proof.Machine

/-- What the engine does with a decoded command (R100). -/
def exec (i : Instr) (s : State) : Host.Outcome State Fault Refusal :=
  match i with
  | .init => Sys2Proof.Machine.execInit s
  | .update b => Sys2Proof.Machine.execUpdate b s
  | .final => Sys2Proof.Machine.execFinal s

end Sys2Proof.Machine
end

