-- ==== Sys2Proof/Machine/Flags.lean ====
section
/-! DEFINITION. The codes of the status fields (R25, R201) and the STATUS word (R54). -/

namespace Sys2Proof.Machine

/-- The 2-bit code of LC (R25). -/
def Lifecycle.code (l : Lifecycle) : BitVec 2 :=
  match l with
  | .uninit => 0b00
  | .active => 0b01
  | .finalized => 0b10

/-- The 3-bit code of FCAUSE (R201); NONE is 0. -/
def causeCode (c : Option Cause) : BitVec 3 :=
  match c with
  | none => 0
  | some .illegalCmd => 1
  | some .uninitUse => 2
  | some .afterFinal => 3
  | some .cmdWhileBusy => 4

/-- A flag as a 1-bit value. -/
def flagBit (b : Bool) : BitVec 1 := BitVec.ofBool b

/-- R54: `zext_32( BLEN << 8 | FCAUSE << 4 | FAULT << 3 | BUSY << 2 | LC )`. -/
def statusWord (e : Engine) : Word :=
  (e.blen.setWidth 32 <<< 8) ||| ((causeCode e.fcause).setWidth 32 <<< 4) ||| ((flagBit e.fault).setWidth 32 <<< 3)
    ||| ((flagBit e.busy).setWidth 32 <<< 2) ||| (e.lc.code).setWidth 32

/-- STATUS[2], the bit WAITIDLE loops on (R89). -/
def busyBit (status : Word) : Bool := status.getLsbD 2

end Sys2Proof.Machine
end

