-- ==== Sys2Proof/Machine/Bus.lean ====
section
/-! DEFINITION. The register window (20_memory.md) and the turns of the agents: what a host read returns, what a host write
does, the host's WAITIDLE loop, the engine's turn, reset, and the runs outside the spec. -/

namespace Sys2Proof.Machine

/-- The words of the window (R53). -/
inductive WindowReg where
  | cmd
  | status
  | rsvd0
  | rsvd1
  | digest (n : Fin 4)
  deriving DecidableEq, Repr

/-- Which word an address selects: bits [4:2] only, bits [1:0] are ignored (R51, R52). -/
def windowReg (addr : BitVec 5) : WindowReg :=
  match (addr.extractLsb' 2 3).toFin with
  | 0 => .cmd
  | 1 => .status
  | 2 => .rsvd0
  | 3 => .rsvd1
  | 4 => .digest 0
  | 5 => .digest 1
  | 6 => .digest 2
  | 7 => .digest 3

/-- The offset of a word of the window (R53). -/
def windowOffset (r : WindowReg) : BitVec 5 :=
  match r with
  | .cmd => 0x00
  | .status => 0x04
  | .rsvd0 => 0x08
  | .rsvd1 => 0x0C
  | .digest n => 0x10 + BitVec.ofNat 5 (4 * n.val)

/-- R56: a 32-bit word from four bytes, the first in bits [7:0] (little-endian lanes, R62). -/
def lanesWord (b0 b1 b2 b3 : Byte) : Word :=
  (b3.setWidth 32 <<< 24) ||| (b2.setWidth 32 <<< 16) ||| (b1.setWidth 32 <<< 8) ||| b0.setWidth 32

/-- The word of STATE that DIGESTn shows while the view is open (R56). None if an element read holds ⊥ (R12). -/
def digestLanes (state : DataReg) (n : Fin 4) : Option Word :=
  (state[4 * n.val]).value.bind fun b0 =>
    (state[4 * n.val + 1]).value.bind fun b1 =>
      (state[4 * n.val + 2]).value.bind fun b2 =>
        (state[4 * n.val + 3]).value.map fun b3 => lanesWord b0 b1 b2 b3

/-- R56: the DIGEST view is open exactly while LC = FINALIZED and BUSY = 0. FAULT does not gate it. -/
def digestOpen (e : Engine) : Bool := e.lc == .finalized && !e.busy

/-- What a read of a word returns (R53 to R57). A read has no side effect (R59). -/
def readWindow (e : Engine) (r : WindowReg) : Option Word :=
  match r with
  | .cmd => some 0
  | .status => some (statusWord e)
  | .rsvd0 => some 0
  | .rsvd1 => some 0
  | .digest n => if digestOpen e then digestLanes e.state n else some 0

/-- A host read (R50). -/
def hostRead (addr : BitVec 5) (s : State) : Host.Outcome State Fault Refusal :=
  match readWindow s.engine (windowReg addr) with
  | some v => .next (recordRead s v)
  | none => .fault .bottomRead

/-- A write of word c to CMD (R100): an illegal word is discarded, a command is executed. -/
def writeCommand (c : Word) (s : State) : Host.Outcome State Fault Refusal :=
  match decode c with
  | .ok i => exec i s
  | .error _ => discardIllegal s

/-- A host write (R50): only a write to CMD can change the engine (R55); every other write is ignored (R57, R58). -/
def hostWrite (addr : BitVec 5) (v : Word) (s : State) : Host.Outcome State Fault Refusal :=
  match windowReg addr with
  | .cmd => writeCommand v s
  | .status => .next s
  | .rsvd0 => .next s
  | .rsvd1 => .next s
  | .digest _ => .next s

/-- One host access (R50). -/
def hostAccess (a : HostAccess) (s : State) : Host.Outcome State Fault Refusal :=
  match a with
  | .read addr => hostRead addr s
  | .write addr v => hostWrite addr v s

/-- One poll of WAITIDLE (R89): read STATUS, and go round again while its bit 2 is 1. -/
def pollStatus (polls : Nat) (s : State) : State :=
  let v := statusWord s.engine
  let s' := recordRead s v
  if busyBit v then pushInput s' (.waitIdle polls) else s'

/-- One turn inside WAITIDLE (R89): while BUSY = 1 the host polls `polls` times, then the engine takes its completion step
(R102, R103); the poll that sees BUSY = 0 ends the loop. DESIGN CHOICE, unsafe (notes/assumptions/7.md). -/
def waitIdleTurn (polls : Nat) (s : State) : State :=
  match polls with
  | 0 => if s.engine.busy then pushInput (complete s) (.waitIdle 0) else pollStatus 0 s
  | n + 1 => pollStatus n s

/-- One turn of an agent (R7). -/
def takeInput (i : Input) (s : State) : Host.Outcome State Fault Refusal :=
  match i with
  | .access a => hostAccess a s
  | .waitIdle polls => .next (waitIdleTurn polls s)
  | .engineTurn => .next (engineTurn s)
  | .reset => .next (resetEngine s)
  | .powerLoss => .next (resetEngine s)
  | .otherHost _ => .refused .otherHost
  | .accessDuringReset _ => .refused .accessDuringReset

end Sys2Proof.Machine
end

