-- ==== Sys2Proof/Machine/Step.lean ====
section
/-! DEFINITION. One step of the machine: the next turn of the list, or the engine's turn when no input is left (R66, R102,
R103). -/

namespace Sys2Proof.Machine

/-- One step. With no input left the engine moves, so no run stays at BUSY = 1 for ever (R103, R250):
DESIGN CHOICE, unsafe (notes/assumptions/2.md). -/
def step (s : State) : Host.Outcome State Fault Refusal :=
  match s.inputs with
  | [] => .next (engineTurn s)
  | i :: rest => takeInput i { s with inputs := rest }

/-- The state in which the next turn is a host write of the word `w` to CMD: this is how a command reaches the engine, which
fetches nothing (R50, R69). -/
def State.withFetchWord (s : State) (nbits w : Nat) : State :=
  { s with inputs := .access (.write (windowOffset .cmd) (BitVec.ofNat 32 (w % 2 ^ nbits))) :: s.inputs }

end Sys2Proof.Machine
end

