-- ==== Sys2Proof/Machine/Assembler.lean ====
section
/-! DEFINITION. The assembler syntax (R88) and the pseudo-instructions (R89) as lists of host turns. Every WAITIDLE has a
number of its own, `polls`: how many of its STATUS reads come before the completion step that ends it (U15,
notes/assumptions/7.md). A host cannot choose these numbers; a pseudo-instruction stands for every list with some choice of
them. -/

namespace Sys2Proof.Machine

/-- `sw <reg>, <imm32>` (R88). -/
def asmSw (r : WindowReg) (v : Word) : Input := .access (.write (windowOffset r) v)

/-- `lw <var>, <reg>` (R88); the variable is the next entry of `State.reads`. -/
def asmLw (r : WindowReg) : Input := .access (.read (windowOffset r))

/-- `INIT`, `UPDATE #b`, `FINAL`: a write of the command's word to CMD (R88). -/
def asmCommand (i : Instr) : Input := asmSw .cmd (encode i)

/-- `CMDW <word>`: `sw CMD, <word>` and then WAITIDLE (R89). -/
def asmCmdw (polls : Nat) (c : Word) : List Input := [asmSw .cmd c, .waitIdle polls]

/-- A message byte and the polls of the WAITIDLE behind its UPDATE. -/
structure TimedByte where
  byte  : Byte
  polls : Nat
  deriving DecidableEq, Repr

/-- `ABSORB b0, b1, ...`: one `CMDW UPDATE #b` per byte, in order; nothing for no bytes (R89, R90). -/
def asmAbsorb (bytes : List TimedByte) : List Input :=
  bytes.flatMap fun b => asmCmdw b.polls (encode (.update b.byte))

/-- `RDDIGEST`: the four digest words in order (R89). -/
def asmRdDigest : List Input := [asmLw (.digest 0), asmLw (.digest 1), asmLw (.digest 2), asmLw (.digest 3)]

/-- `HASH`: INIT, the message, FINAL, and the digest read (R89). -/
def asmHash (initPolls : Nat) (bytes : List TimedByte) (finalPolls : Nat) : List Input :=
  asmCmdw initPolls (encode .init) ++ asmAbsorb bytes ++ asmCmdw finalPolls (encode .final) ++ asmRdDigest

end Sys2Proof.Machine
end

