-- ==== Sys2Proof/Config.lean ====
section
/-! DEFINITION. The parameters of R9 (notes/assumptions/9.md, 10.md). Each is opaque: no proof can see its value, so
a claim holds whatever the platform chose (93_implementation_defined.md U15 to U17). -/

namespace Sys2Proof

/-- Which 32-byte window of the host's bus the first engine of the platform occupies (R51). -/
opaque Config.firstWindow : Nat

/-- How many windows stay free between engine `k` and engine `k + 1`. -/
opaque Config.freeWindows : Nat → Nat

/-- Which 32-byte window of the host's bus engine `k` of the platform occupies. Each engine has its own window, and engines are
told apart by their base addresses (R222), so they are numbered here in the order of those: DESIGN CHOICE, safe
(notes/assumptions/9.md). -/
def Config.engineWindow (k : Nat) : Nat :=
  match k with
  | 0 => Config.firstWindow
  | k + 1 => Config.engineWindow k + Config.freeWindows k + 1

/-- ENGINE_BASE of engine `k`, aligned to 32 bytes (R51). -/
def Config.engineBase (k : Nat) : Nat := 32 * Config.engineWindow k

/-- How many engines the platform holds beside the first. -/
opaque Config.furtherEngines : Nat

/-- N_INSTANCES, at least 1 (R9, R222). -/
def Config.nInstances : Nat := Config.furtherEngines + 1

/-- T_XFORM, the bound in cycles on a busy period (R9). The model has no clock; Safety.lean uses it as the bound on the
polls that one WAITIDLE spends while BUSY = 1. -/
opaque Config.tXform : Nat

end Sys2Proof
end

