-- ==== Sys2Proof/Machine/Platform.lean ====
section
/-! DEFINITION. A platform of n engines (R222): each with its own window at its own ENGINE_BASE and its own copy of every
register; only the constant S is shared. The host reaches an engine by a bus address (R50, R51). -/

namespace Sys2Proof.Machine

/-- The platform's engines. N_INSTANCES is the argument n (D20). -/
structure Platform (n : Nat) where
  machines : Vector State n
  deriving DecidableEq, Repr

/-- The bus address of offset `off` in the window of engine k: `ENGINE_BASE + off` (R50). -/
def busAddress (k : Nat) (off : BitVec 5) : Nat := Config.engineBase k + off.toNat

/-- Whether a bus address lies in the window of engine k, 32 bytes from ENGINE_BASE (R51). -/
def inWindow (k addr : Nat) : Bool := addr / 32 == Config.engineWindow k

/-- The address bits an engine sees, [4:0] (R51). -/
def windowAddress (addr : Nat) : BitVec 5 := BitVec.ofNat 5 addr

/-- The engine a bus address reaches: the one whose window holds it. No two windows hold the same address (R222). -/
def Platform.reached (n addr : Nat) : Option (Fin n) := (List.finRange n).find? fun k => inWindow k.val addr

/-- Engine k takes one step; the others are not touched (R222). -/
def Platform.stepAt {n : Nat} (p : Platform n) (k : Fin n) : Host.Outcome (Platform n) Fault Refusal :=
  match step p.machines[k] with
  | .next s => .next { p with machines := p.machines.set k s }
  | .fault f => .fault f
  | .refused r => .refused r

/-- Engine k performs the given access as its next step (R66). -/
def Platform.accessAt {n : Nat} (p : Platform n) (k : Fin n) (a : HostAccess) : Host.Outcome (Platform n) Fault Refusal :=
  Platform.stepAt { p with machines := p.machines.set k (pushInput p.machines[k] (.access a)) } k

/-- An access on the bus (R50): the engine whose window holds the address performs it, at the offset it sees. An address in
no window is refused (notes/assumptions/9.md). -/
def Platform.busAccess {n : Nat} (p : Platform n) (addr : Nat) (a : BitVec 5 → HostAccess) :
    Host.Outcome (Platform n) Fault Refusal :=
  match Platform.reached n addr with
  | some k => p.accessAt k (a (windowAddress addr))
  | none => .refused .outsideWindow

/-- `MemRead(addr, 4)` on the bus (R50). -/
def Platform.busRead {n : Nat} (p : Platform n) (addr : Nat) : Host.Outcome (Platform n) Fault Refusal :=
  p.busAccess addr .read

/-- `MemWrite(addr, 4, v)` on the bus (R50). -/
def Platform.busWrite {n : Nat} (p : Platform n) (addr : Nat) (v : Word) : Host.Outcome (Platform n) Fault Refusal :=
  p.busAccess addr fun off => .write off v

/-- The platform of R9: N_INSTANCES engines, every one right after reset. -/
def Platform.reset : Platform Config.nInstances where
  machines := Vector.replicate Config.nInstances State.reset

end Sys2Proof.Machine
end

