-- ==== Sys2Proof/Machine/Sequencer.lean ====
section
/-! DEFINITION. The reference sequencer of R152: one transform as an ordered series of micro-steps over the working values of
R32. The engine commits a command in one step (R101) and does not hold these values; this machine is what R152 asks to have
the same observable result. Also the in-place fold that R123 speaks of. -/

namespace Sys2Proof.Machine

/-- The micro-states of R152. -/
inductive Micro where
  | load
  | mix (j : Fin 18) (k : Fin 48)
  | round (j : Fin 18)
  | store
  | done
  deriving DecidableEq, Repr

/-- The sequencer: the two registers a transform writes, the block it is run on, and the working values of R32. -/
structure Sequencer where
  micro : Micro
  state : Block
  cksum : Block
  block : Block
  /-- M', the snapshot of the block. -/
  snap  : Block
  /-- W, the working buffer. -/
  w     : Vector Byte 48
  /-- t, the mixing carry. -/
  t     : Byte
  /-- i, the fold index, 0..16. -/
  i     : Nat
  /-- L, the fold carry. -/
  l     : Byte
  deriving DecidableEq, Repr

/-- The working buffer that LOAD builds (R141). -/
def loadWork (x m : Block) : Vector Byte 48 :=
  Vector.ofFn fun k =>
    if h : k.val < 16 then x[k.val]
    else if h' : k.val < 32 then m[k.val - 16]
    else m[k.val - 32] ^^^ x[k.val - 32]

/-- LOAD (R152). -/
def Sequencer.doLoad (s : Sequencer) : Sequencer :=
  { s with snap := s.block, w := loadWork s.state s.block, t := 0, i := 0, l := s.cksum[15], micro := .mix 0 0 }

/-- The fold step that goes with a MIX step while i < 16 (R152). -/
def Sequencer.doFold (s : Sequencer) : Sequencer :=
  if h : s.i < 16 then
    let c := s.cksum[s.i] ^^^ sbox (s.snap[s.i] ^^^ s.l)
    { s with cksum := s.cksum.set s.i c, l := c, i := s.i + 1 }
  else s

/-- MIX (j, k) (R152): one byte of W, and one fold step if one is left. -/
def Sequencer.doMix (s : Sequencer) (j : Fin 18) (k : Fin 48) : Sequencer :=
  let v := s.w[k] ^^^ sbox s.t
  let s' := ({ s with w := s.w.set k v, t := v } : Sequencer).doFold
  { s' with micro := if h : k.val + 1 < 48 then .mix j ⟨k.val + 1, h⟩ else .round j }

/-- ROUND (R152): `t <- (t + j) mod 256`. -/
def Sequencer.doRound (s : Sequencer) (j : Fin 18) : Sequencer :=
  { s with t := s.t + BitVec.ofNat 8 j.val, micro := if h : j.val + 1 < 18 then .mix ⟨j.val + 1, h⟩ 0 else .store }

/-- STORE (R152): `STATE <- W[0..16)`. -/
def Sequencer.doStore (s : Sequencer) : Sequencer :=
  { s with state := Vector.ofFn fun i => s.w[i.val], micro := .done }

/-- One micro-step (R152). -/
def Sequencer.microStep (s : Sequencer) : Sequencer :=
  match s.micro with
  | .load => s.doLoad
  | .mix j k => s.doMix j k
  | .round j => s.doRound j
  | .store => s.doStore
  | .done => s

/-- n micro-steps. -/
def Sequencer.run (n : Nat) (s : Sequencer) : Sequencer :=
  match n with
  | 0 => s
  | k + 1 => Sequencer.run k s.microStep

/-- How many micro-steps one transform takes: 1 LOAD, 864 MIX, 18 ROUND, 1 STORE (R252). -/
def microStepsPerTransform : Nat := 1 + 18 * 48 + 18 + 1

/-- One step of a fold whose block is the register it overwrites: CKSUM[i] is read just before it is written (R123). -/
def foldInPlaceStep (p : Block × Byte) (i : Fin 16) : Block × Byte :=
  let c := p.1[i] ^^^ sbox (p.1[i] ^^^ p.2)
  (p.1.set i c, c)

/-- The in-place fold of R123, i = 0..15. -/
def foldInPlace (ck : Block) : Block := ((List.finRange 16).foldl foldInPlaceStep (ck, ck[15])).1

end Sys2Proof.Machine
end

