-- ==== Sys2Proof/Machine/Digest.lean ====
section
/-! DEFINITION. `MD2(m)` as R125 defines it for a byte sequence, in terms of the pure transform; it knows nothing of the
engine's staging buffer. -/

namespace Sys2Proof.Machine

/-- Block q of a message, `m[16q .. 16q+16)` (R125). Used only where those 16 bytes exist. -/
def messageBlock (m : List Byte) (q : Nat) : Block := Vector.ofFn fun i => m.getD (16 * q + i.val) 0

/-- STATE and CKSUM after the first n full blocks of a message, from zero (R125). -/
def absorbBlocks (m : List Byte) (n : Nat) : Block × Block :=
  (List.range n).foldl (fun p q => transform p.1 p.2 (messageBlock m q)) (Vector.replicate 16 0, Vector.replicate 16 0)

/-- The last block, with r = n mod 16 message bytes and 16 - r pad bytes of value 16 - r (R121, R125). -/
def paddedBlock (m : List Byte) : Block :=
  let r := m.length % 16
  Vector.ofFn fun i => if i.val < r then m.getD (m.length - r + i.val) 0 else BitVec.ofNat 8 (16 - r)

/-- `MD2(m)` (R125): the full blocks, the padded block, and then the checksum of all of them as a block. -/
def md2 (m : List Byte) : Block :=
  let p := absorbBlocks m (m.length / 16)
  let q := transform p.1 p.2 (paddedBlock m)
  (transform q.1 q.2 q.2).1

end Sys2Proof.Machine
end

