-- ==== Sys2Proof/Safety.lean ====
section
/-! DEFINITION. What counts as a safe run, in the terms the claims use: the invariants of R34 and R36, the invariant of R125,
an empty fault log (R213), and the host's side of hazard H1 (R245). -/

namespace Sys2Proof.Machine

/-- A run of k steps, up to the first fault or refusal. -/
def runSteps (k : Nat) (s : State) : Host.Outcome State Fault Refusal :=
  match k with
  | 0 => .next s
  | n + 1 =>
    match step s with
    | .next t => runSteps n t
    | .fault f => .fault f
    | .refused r => .refused r

/-- R36: BLEN = 0 whenever LC = FINALIZED, and FCAUSE = NONE exactly when FAULT = 0. That BLEN is in 0..15, that LC is never
0b11, and that STATE and CKSUM hold 16 elements is in their types. -/
def Engine.FieldsAgree (e : Engine) : Prop :=
  (e.lc = .finalized → e.blen = 0) ∧ (e.fcause = none ↔ e.fault = false)

/-- R34: once INIT has been accepted, STATE, CKSUM and the staged part of BUF hold values. -/
def Engine.Written (e : Engine) : Prop :=
  e.lc ≠ .uninit →
    (∀ i : Fin 16, e.state[i] ≠ .bot) ∧ (∀ i : Fin 16, e.cksum[i] ≠ .bot) ∧
      (∀ i : Fin 16, i.val < e.blen.toNat → e.buf[i] ≠ .bot)

/-- The invariants of 10_state.md, section 5. -/
def State.Inv (s : State) : Prop := s.engine.FieldsAgree ∧ s.engine.Written

/-- What the engine holds while a hash is open: STATE and CKSUM after the full blocks of the message, and its last
`length mod 16` bytes staged in BUF. -/
def Engine.Holds (e : Engine) (m : List Byte) : Prop :=
  e.state = ofBlock (absorbBlocks m (m.length / 16)).1 ∧ e.cksum = ofBlock (absorbBlocks m (m.length / 16)).2 ∧
    e.blen.toNat = m.length % 16 ∧
      ∀ i : Fin 16, i.val < e.blen.toNat → e.buf[i] = .byte (m.getD (m.length - e.blen.toNat + i.val) 0)

/-- R125 as an invariant: while LC = ACTIVE the engine holds the message so far; once LC = FINALIZED, STATE is MD2 of it. -/
def State.DigestInv (s : State) : Prop :=
  (s.engine.lc = .active → s.engine.Holds s.message) ∧
    (s.engine.lc = .finalized → s.engine.state = ofBlock (md2 s.message) ∧ s.engine.blen = 0)

/-- R213: a run is correct only if nothing was recorded in the fault log. -/
def State.Safe (s : State) : Prop := s.faultLog = []

/-- R245, hazard H1: no CMD write before the WAITIDLE that follows the CMD write before it. `open_` says that a busy period
may still be open. -/
def spaced (open_ : Bool) (l : List Input) : Bool :=
  match l with
  | [] => true
  | .access (.write addr _) :: rest =>
    if windowReg addr = .cmd then !open_ && spaced true rest else spaced open_ rest
  | .access (.read _) :: rest => spaced open_ rest
  | .waitIdle _ :: rest => spaced false rest
  | .engineTurn :: rest => spaced open_ rest
  | .reset :: rest => spaced false rest
  | .powerLoss :: rest => spaced false rest
  | .otherHost _ :: rest => spaced open_ rest
  | .accessDuringReset _ :: rest => spaced open_ rest

/-- Every WAITIDLE of the list ends within T_XFORM polls (R9, R103). -/
def withinBound (l : List Input) : Prop := ∀ p : Nat, Input.waitIdle p ∈ l → p ≤ Config.tXform

/-- Two engines that a host cannot tell apart by reading the window (R53 to R57): the same STATUS fields, and the same STATE
if the DIGEST view is open. -/
def Engine.SameView (e f : Engine) : Prop :=
  e.blen = f.blen ∧ e.lc = f.lc ∧ e.busy = f.busy ∧ e.fault = f.fault ∧ e.fcause = f.fcause ∧
    (digestOpen e = true → e.state = f.state)

/-- Two engines that differ at most where no rule reads before writing (R34, D16, D17): BUF at and above BLEN, and CKSUM and
all of BUF once LC = FINALIZED. -/
def Engine.SameLive (e f : Engine) : Prop :=
  e.blen = f.blen ∧ e.lc = f.lc ∧ e.busy = f.busy ∧ e.fault = f.fault ∧ e.fcause = f.fcause ∧
    (e.lc ≠ .uninit → e.state = f.state) ∧
      (e.lc = .active → e.cksum = f.cksum ∧ ∀ i : Fin 16, i.val < e.blen.toNat → e.buf[i] = f.buf[i])

/-- Two machines alike in everything but the elements of `Engine.SameLive`. -/
def State.SameLive (s t : State) : Prop :=
  s.engine.SameLive t.engine ∧ s.faultLog = t.faultLog ∧ s.message = t.message ∧ s.reads = t.reads ∧ s.inputs = t.inputs

end Sys2Proof.Machine
end

