-- ==== Sys2Proof/Certificates/Slice0/Obligations.lean ====
section
/-! DEFINITION. The statements for the provers, in the order of spec/: encoding, dispatch and faults, the three commands,
the transform, the register window, reset and the busy period, the invariants, and the whole machine. `message`, `reads` and
`inputs` are the model's own fields (notes/assumptions/2.md, 4.md, 5.md); a clause about one of them is the model's, not the
spec's. -/

open Sys2Proof Sys2Proof.Machine

/-! ### Encoding -/

/-- Words written out from R80 and R82 decode to the commands they stand for, and words R84 forbids are rejected by name. -/
def Obligations.SampleWordsDecode : Prop :=
  decode 0b00000000000000000001000000000000 = .ok .init ∧
  decode 0b00000000000000000010000001100001 = .ok (.update 0x61) ∧
  decode 0b00000000000000000010000000000000 = .ok (.update 0x00) ∧
  decode 0b00000000000000000010000011111111 = .ok (.update 0xFF) ∧
  decode 0b00000000000000000011000000000000 = .ok .final ∧
  decode 0x00000000 = .error .reservedOp ∧
  decode 0x00004000 = .error .reservedOp ∧
  decode 0x00001001 = .error .dataNotZero ∧
  decode 0x00003001 = .error .dataNotZero ∧
  decode 0x00002161 = .error .reservedMid ∧
  decode 0x00011000 = .error .reservedHigh

/-- Decode and encode agree: decoding an encoded well-formed instruction gives it back, with every operand, and a word that
decodes to an instruction is that instruction's word (R80, R82, R86). -/
def Obligations.DecodeAndEncodeAgree : Prop :=
  (∀ i : Instr, i.WellFormed → decode (encode i) = .ok i) ∧
  (∀ (c : Word) (i : Instr), decode c = .ok i → encode i = c ∧ i.WellFormed)

/-- R84: the decoder accepts a word exactly when all four conditions on its fields hold. -/
def Obligations.DecoderAcceptsExactlyTheLegalWords : Prop :=
  ∀ c : Word, (∃ i : Instr, decode c = .ok i) ↔
    (c.extractLsb' 16 16 = 0 ∧ c.extractLsb' 8 4 = 0 ∧
      (c.extractLsb' 12 4 = 1 ∨ c.extractLsb' 12 4 = 2 ∨ c.extractLsb' 12 4 = 3) ∧
      ((c.extractLsb' 12 4 = 1 ∨ c.extractLsb' 12 4 = 3) → c.extractLsb' 0 8 = 0))

/-- R83: INIT is exactly 0x00001000, FINAL exactly 0x00003000, UPDATE with byte b exactly `0x00002000 | b`; no other word is
legal. -/
def Obligations.LegalWordsAreThe258 : Prop :=
  ∀ c : Word,
    (decode c = .ok .init ↔ c = 0x00001000) ∧
    (∀ b : Byte, decode c = .ok (.update b) ↔ c = 0x00002000 ||| b.setWidth 32) ∧
    (decode c = .ok .final ↔ c = 0x00003000)

/-! ### Dispatch and faults -/

/-- A step runs the decoded command: when the next turn is a host write to CMD of a word that decodes to i, the step is exec
of i in the state without that turn; `withFetchWord` places such a turn. -/
def Obligations.StepRunsTheDecodedCommand : Prop :=
  (∀ (s : State) (addr : BitVec 5) (c : Word) (rest : List Input) (i : Instr),
    s.inputs = .access (.write addr c) :: rest → windowReg addr = .cmd → decode c = .ok i →
      step s = exec i { s with inputs := rest }) ∧
  (∀ (s : State) (w : Nat) (i : Instr), decodeTableWord 32 w = some i → step (s.withFetchWord 32 w) = exec i s)

/-- R202: `raise Fault(c)` records the fault and nothing else; the first cause is kept. -/
def Obligations.RaisingAFaultRecordsTheFirstCause : Prop :=
  ∀ (c : Cause) (s : State),
    (s.engine.fault = false → (raiseFault c s).engine = { s.engine with fault := true, fcause := some c }) ∧
    (s.engine.fault = true → (raiseFault c s).engine = s.engine)

/-- R213: every recorded fault appends its cause to the fault log, also when FAULT = 1 already, and no step removes an entry. -/
def Obligations.FaultLogOnlyGrows : Prop :=
  (∀ (c : Cause) (s : State), (raiseFault c s).faultLog = s.faultLog ++ [c]) ∧
  (∀ s t : State, step s = .next t → ∃ added : List Cause, t.faultLog = s.faultLog ++ added)

/-- R205: the outcome of a CMD write, in the order of its checks; the first condition that applies decides. -/
def Obligations.FirstApplicableCheckDecides : Prop :=
  ∀ (s : State) (addr : BitVec 5) (c : Word) (rest : List Input),
    s.inputs = .access (.write addr c) :: rest → windowReg addr = .cmd →
    let s0 : State := { s with inputs := rest }
    (s.engine.busy = true → step s = .next (raiseFault .cmdWhileBusy s0)) ∧
    (s.engine.busy = false → (∀ i : Instr, decode c ≠ .ok i) → step s = .next (raiseFault .illegalCmd s0)) ∧
    (∀ i : Instr, s.engine.busy = false → decode c = .ok i → i ≠ .init → s.engine.fault = true → step s = .next s0) ∧
    (∀ i : Instr, s.engine.busy = false → decode c = .ok i → i ≠ .init → s.engine.fault = false →
      s.engine.lc = .uninit → step s = .next (raiseFault .uninitUse s0)) ∧
    (∀ i : Instr, s.engine.busy = false → decode c = .ok i → i ≠ .init → s.engine.fault = false →
      s.engine.lc = .finalized → step s = .next (raiseFault .afterFinal s0)) ∧
    (∀ i : Instr, s.engine.busy = false → decode c = .ok i →
      (i = .init ∨ (s.engine.fault = false ∧ s.engine.lc = .active)) → s.engine.Written →
      ∃ t : State, step s = .next t ∧ t.engine.busy = true ∧ t.faultLog = s.faultLog ∧ t.inputs = rest)

/-- R85: a CMD write of a word outside the 258 legal ones is discarded with ILLEGAL_CMD, unless the engine is busy, which
takes priority. -/
def Obligations.IllegalWordIsDiscarded : Prop :=
  ∀ (s : State) (addr : BitVec 5) (c : Word) (rest : List Input),
    s.inputs = .access (.write addr c) :: rest → windowReg addr = .cmd →
    c ≠ 0x00001000 → c ≠ 0x00003000 → (∀ b : Byte, c ≠ 0x00002000 ||| b.setWidth 32) →
    step s = .next (raiseFault (if s.engine.busy then .cmdWhileBusy else .illegalCmd) { s with inputs := rest })

/-- R203: a discarded command writes none of STATE, CKSUM, BUF, BLEN, LC and BUSY; it changes FAULT and FCAUSE only as R202
says. A command is discarded when one of the checks of R100 fails. -/
def Obligations.DiscardedCommandWritesNothing : Prop :=
  ∀ (s : State) (addr : BitVec 5) (c : Word) (rest : List Input),
    s.inputs = .access (.write addr c) :: rest → windowReg addr = .cmd →
    (s.engine.busy = true ∨ (∀ i : Instr, decode c ≠ .ok i) ∨
      (decode c ≠ .ok .init ∧ (s.engine.fault = true ∨ s.engine.lc ≠ .active))) →
    ∃ t : State, step s = .next t ∧ t.engine.state = s.engine.state ∧ t.engine.cksum = s.engine.cksum ∧
      t.engine.buf = s.engine.buf ∧ t.engine.blen = s.engine.blen ∧ t.engine.lc = s.engine.lc ∧
      t.engine.busy = s.engine.busy ∧ t.message = s.message ∧ t.reads = s.reads ∧ t.inputs = rest ∧
      (s.engine.fault = true → t.engine.fault = true ∧ t.engine.fcause = s.engine.fcause) ∧
      (s.engine.fault = false → ∃ k : Cause, t.engine.fault = true ∧ t.engine.fcause = some k ∧
        t.faultLog = s.faultLog ++ [k])

/-- R204: while FAULT = 1 every legal command other than INIT is discarded without changing FCAUSE, and a damaged hash never
reaches LC = FINALIZED. -/
def Obligations.PoisonedHashNeverFinalizes : Prop :=
  (∀ (i : Instr) (s : State), i ≠ .init → s.engine.fault = true →
    ∃ t : State, exec i s = .next t ∧ t.engine = s.engine ∧ (s.engine.busy = false → t = s)) ∧
  (∀ s t : State, step s = .next t → s.engine.fault = true → t.engine.lc = .finalized →
    s.engine.lc = .finalized ∧ t.engine.fault = true ∧ t.engine.fcause = s.engine.fcause)

/-- R207: an accepted INIT and reset clear a fault; nothing else does. -/
def Obligations.OnlyInitAndResetClearAFault : Prop :=
  (∀ s t : State, step s = .next t → s.engine.fault = true → t.engine.fault = false →
    t.engine.fcause = none ∧
    ((∃ (addr : BitVec 5) (rest : List Input), s.engine.busy = false ∧ windowReg addr = .cmd ∧
        s.inputs = .access (.write addr (encode .init)) :: rest) ∨
      (∃ rest : List Input, s.inputs = .reset :: rest ∨ s.inputs = .powerLoss :: rest))) ∧
  (∀ s : State, s.engine.busy = false →
    ∃ t : State, exec .init s = .next t ∧ t.engine.fault = false ∧ t.engine.fcause = none) ∧
  (∀ (s : State) (rest : List Input), (s.inputs = .reset :: rest ∨ s.inputs = .powerLoss :: rest) →
    ∃ t : State, step s = .next t ∧ t.engine.fault = false ∧ t.engine.fcause = none)

/-- R27: only the fault recording of R202 sets FAULT, and only a CMD write that is discarded calls it: nothing else of the
engine changes in that step, and the cause goes into the fault log. -/
def Obligations.OnlyADiscardedCommandSetsFault : Prop :=
  ∀ s t : State, step s = .next t → s.engine.fault = false → t.engine.fault = true →
    ∃ (addr : BitVec 5) (v : Word) (rest : List Input) (c : Cause),
      windowReg addr = .cmd ∧ s.inputs = .access (.write addr v) :: rest ∧
      t.engine = { s.engine with fault := true, fcause := some c } ∧ t.faultLog = s.faultLog ++ [c]

/-- R25: only INIT (to ACTIVE), FINAL (to FINALIZED) and reset (to UNINIT) write LC, and its codes are 0b00, 0b01, 0b10; the
code 0b11 is never produced. -/
def Obligations.OnlyInitFinalAndResetWriteLifecycle : Prop :=
  (∀ s t : State, step s = .next t → t.engine.lc ≠ s.engine.lc →
    (t.engine.lc = .active ∧ ∃ (addr : BitVec 5) (rest : List Input), windowReg addr = .cmd ∧
        s.inputs = .access (.write addr (encode .init)) :: rest) ∨
    (t.engine.lc = .finalized ∧ s.engine.lc = .active ∧ ∃ (addr : BitVec 5) (rest : List Input), windowReg addr = .cmd ∧
        s.inputs = .access (.write addr (encode .final)) :: rest) ∨
    (t.engine.lc = .uninit ∧ ∃ rest : List Input, s.inputs = .reset :: rest ∨ s.inputs = .powerLoss :: rest)) ∧
  Lifecycle.code .uninit = 0b00 ∧ Lifecycle.code .active = 0b01 ∧ Lifecycle.code .finalized = 0b10 ∧
  (∀ l : Lifecycle, l.code ≠ 0b11)

/-- R21, R22: STATE and CKSUM have exactly two writers beside reset, INIT (to `0^16`) and the block transform, which UPDATE
runs on the 16th byte and FINAL runs. -/
def Obligations.StateAndChecksumHaveTwoWriters : Prop :=
  ∀ s t : State, step s = .next t → (t.engine.state ≠ s.engine.state ∨ t.engine.cksum ≠ s.engine.cksum) →
    (∃ rest : List Input, s.inputs = .reset :: rest ∨ s.inputs = .powerLoss :: rest) ∨
    ∃ (addr : BitVec 5) (i : Instr) (rest : List Input), windowReg addr = .cmd ∧
      s.inputs = .access (.write addr (encode i)) :: rest ∧
      ((i = .init ∧ t.engine.state = ofBlock (Vector.replicate 16 0) ∧ t.engine.cksum = ofBlock (Vector.replicate 16 0)) ∨
       (∃ (b : Byte) (x ck m : Block), i = .update b ∧ s.engine.blen = 15 ∧ s.engine.state = ofBlock x ∧
          s.engine.cksum = ofBlock ck ∧ t.engine.buf = ofBlock m ∧ t.engine.state = ofBlock (transform x ck m).1 ∧
          t.engine.cksum = ofBlock (transform x ck m).2) ∨
       (∃ x ck m : Block, i = .final ∧ s.engine.state = ofBlock x ∧ s.engine.cksum = ofBlock ck ∧
          t.engine.buf = ofBlock m ∧
          let p := transform x ck m
          t.engine.state = ofBlock (transform p.1 p.2 p.2).1 ∧ t.engine.cksum = ofBlock (transform p.1 p.2 p.2).2))

/-- R26: every accepted command sets BUSY, the completion step clears it, and besides reset nothing else writes it; while
BUSY = 1 a CMD write is discarded with a fault and a DIGEST read returns 0. -/
def Obligations.BusyOpensAndClosesThePeriod : Prop :=
  (∀ (i : Instr) (s t : State), exec i s = .next t → s.engine.busy = false →
    (i = .init ∨ (s.engine.fault = false ∧ s.engine.lc = .active)) → t.engine.busy = true) ∧
  (∀ s t : State, step s = .next t → s.engine.busy = false → t.engine.busy = true →
    ∃ (addr : BitVec 5) (i : Instr) (rest : List Input), windowReg addr = .cmd ∧
      s.inputs = .access (.write addr (encode i)) :: rest ∧ exec i { s with inputs := rest } = .next t) ∧
  (∀ (s : State) (rest : List Input), s.inputs = .engineTurn :: rest → s.engine.busy = true →
    step s = .next { s with engine := { s.engine with busy := false }, inputs := rest }) ∧
  (∀ s t : State, step s = .next t → s.engine.busy = true → t.engine.busy = false →
    t.engine = { s.engine with busy := false } ∨
      ∃ rest : List Input, s.inputs = .reset :: rest ∨ s.inputs = .powerLoss :: rest) ∧
  (∀ (c : Word) (s : State), s.engine.busy = true → writeCommand c s = .next (raiseFault .cmdWhileBusy s)) ∧
  (∀ (addr : BitVec 5) (n : Fin 4) (s : State), s.engine.busy = true → windowReg addr = .digest n →
    hostRead addr s = .next (recordRead s 0))

/-! ### The commands -/

/-- R110, R111: INIT, with BUSY = 0, completes from every lifecycle state, with any contents of the data registers and also
while FAULT = 1; with BUSY = 1 it is discarded. That `message` is emptied is the model's choice (notes/assumptions/5.md). -/
def Obligations.InitStartsANewHash : Prop :=
  ∀ s : State,
    (s.engine.busy = false →
      exec .init s = .next { s with
        engine := { state := ofBlock (Vector.replicate 16 0), cksum := ofBlock (Vector.replicate 16 0), buf := s.engine.buf,
                    blen := 0, lc := .active, busy := true, fault := false, fcause := none }
        message := [] }) ∧
    (s.engine.busy = true → exec .init s = .next (raiseFault .cmdWhileBusy s))

/-- R115: UPDATE with BLEN < 15 completes: it stages the byte in BUF[BLEN] and counts it; no other element and no other
register but BUSY changes. That `message` takes the byte is the model's choice (notes/assumptions/5.md). -/
def Obligations.UpdateStagesOneByte : Prop :=
  ∀ (s : State) (b : Byte), s.engine.busy = false → s.engine.fault = false → s.engine.lc = .active → s.engine.blen ≠ 15 →
    ∃ buf' : DataReg,
      (∀ i : Fin 16, i.val = s.engine.blen.toNat → buf'[i] = .byte b) ∧
      (∀ i : Fin 16, i.val ≠ s.engine.blen.toNat → buf'[i] = s.engine.buf[i]) ∧
      exec (.update b) s = .next { s with
        engine := { s.engine with buf := buf', blen := s.engine.blen + 1, busy := true }, message := s.message ++ [b] }

/-- R115: UPDATE with BLEN = 15 completes: the block of the 15 staged bytes and this one is transformed into STATE and CKSUM
and BLEN goes to 0. That `message` takes the byte is the model's choice (notes/assumptions/5.md). -/
def Obligations.UpdateTransformsAFullBlock : Prop :=
  ∀ (s : State) (b : Byte) (x ck m : Block), s.engine.busy = false → s.engine.fault = false → s.engine.lc = .active →
    s.engine.blen = 15 → s.engine.state = ofBlock x → s.engine.cksum = ofBlock ck → m[15] = b →
    (∀ i : Fin 16, i.val < 15 → s.engine.buf[i] = .byte m[i]) →
    exec (.update b) s = .next { s with
      engine := { s.engine with
        state := ofBlock (mix x m), cksum := ofBlock (fold ck m), buf := ofBlock m, blen := 0, busy := true }
      message := s.message ++ [b] }

/-- R120 to R123: FINAL completes: the padded block is transformed, then the checksum that transform left is transformed as a
block; BLEN goes to 0 and LC to FINALIZED. -/
def Obligations.FinalProducesTheDigest : Prop :=
  ∀ (s : State) (x ck m : Block), s.engine.busy = false → s.engine.fault = false → s.engine.lc = .active →
    s.engine.state = ofBlock x → s.engine.cksum = ofBlock ck →
    (∀ i : Fin 16, i.val < s.engine.blen.toNat → s.engine.buf[i] = .byte m[i]) →
    (∀ i : Fin 16, s.engine.blen.toNat ≤ i.val → m[i] = BitVec.ofNat 8 (16 - s.engine.blen.toNat)) →
    let p := transform x ck m
    let q := transform p.1 p.2 p.2
    exec .final s = .next { s with
      engine := { s.engine with
        state := ofBlock q.1, cksum := ofBlock q.2, buf := ofBlock m, blen := 0, lc := .finalized, busy := true } }

/-- The frame of INIT: BUF is never written (D16), the fault log keeps its entries, and a discarded INIT leaves every register
but FAULT and FCAUSE. -/
def Obligations.InitFrame : Prop :=
  ∀ s t : State, exec .init s = .next t →
    t.engine.buf = s.engine.buf ∧ t.reads = s.reads ∧ t.inputs = s.inputs ∧
    (s.engine.busy = false → t.faultLog = s.faultLog) ∧
    (s.engine.busy = true → t.engine.state = s.engine.state ∧ t.engine.cksum = s.engine.cksum ∧
      t.engine.blen = s.engine.blen ∧ t.engine.lc = s.engine.lc ∧ t.engine.busy = true ∧ t.message = s.message)

/-- The frame of UPDATE: LC never changes; every element of BUF but BUF[BLEN] is kept; STATE and CKSUM change only on the 16th
byte; FAULT, FCAUSE and the fault log are kept by an accepted UPDATE; a discarded one writes no data register, BLEN or BUSY. -/
def Obligations.UpdateFrame : Prop :=
  ∀ (b : Byte) (s t : State), exec (.update b) s = .next t →
    t.engine.lc = s.engine.lc ∧ t.reads = s.reads ∧ t.inputs = s.inputs ∧
    (∀ i : Fin 16, i.val ≠ s.engine.blen.toNat → t.engine.buf[i] = s.engine.buf[i]) ∧
    (s.engine.blen ≠ 15 → t.engine.state = s.engine.state ∧ t.engine.cksum = s.engine.cksum) ∧
    (s.engine.busy = false → s.engine.fault = false → s.engine.lc = .active →
      t.engine.fault = s.engine.fault ∧ t.engine.fcause = s.engine.fcause ∧ t.faultLog = s.faultLog) ∧
    ((s.engine.busy = true ∨ s.engine.fault = true ∨ s.engine.lc ≠ .active) →
      t.engine.state = s.engine.state ∧ t.engine.cksum = s.engine.cksum ∧ t.engine.buf = s.engine.buf ∧
      t.engine.blen = s.engine.blen ∧ t.engine.busy = s.engine.busy ∧ t.message = s.message)

/-- The frame of FINAL: the staged bytes BUF[0..BLEN) and the message are kept; FAULT, FCAUSE and the fault log are kept by an
accepted FINAL; a discarded one writes no data register, BLEN, LC or BUSY. -/
def Obligations.FinalFrame : Prop :=
  ∀ s t : State, exec .final s = .next t →
    t.reads = s.reads ∧ t.inputs = s.inputs ∧ t.message = s.message ∧
    (∀ i : Fin 16, i.val < s.engine.blen.toNat → t.engine.buf[i] = s.engine.buf[i]) ∧
    (s.engine.busy = false → s.engine.fault = false → s.engine.lc = .active →
      t.engine.fault = s.engine.fault ∧ t.engine.fcause = s.engine.fcause ∧ t.faultLog = s.faultLog) ∧
    ((s.engine.busy = true ∨ s.engine.fault = true ∨ s.engine.lc ≠ .active) →
      t.engine.state = s.engine.state ∧ t.engine.cksum = s.engine.cksum ∧ t.engine.buf = s.engine.buf ∧
      t.engine.blen = s.engine.blen ∧ t.engine.lc = s.engine.lc ∧ t.engine.busy = s.engine.busy)

/-- R121: the pad length is `p = 16 - BLEN`, in 1..16, and an accepted FINAL writes the value p to each of the p elements
BUF[BLEN..16). -/
def Obligations.PaddingIsThePadLength : Prop :=
  ∀ s t : State, exec .final s = .next t → s.engine.busy = false → s.engine.fault = false → s.engine.lc = .active →
    ∃ p : Nat, p = 16 - s.engine.blen.toNat ∧ 1 ≤ p ∧ p ≤ 16 ∧
      ∀ i : Fin 16, s.engine.blen.toNat ≤ i.val → t.engine.buf[i] = .byte (BitVec.ofNat 8 p)

/-- R110: INIT twice in a row, each accepted, leaves the same engine as once, and INIT closes the DIGEST view. -/
def Obligations.InitTwiceIsInitOnce : Prop :=
  ∀ s t : State, s.engine.busy = false → exec .init s = .next t →
    (∃ u : State, exec .init (complete t) = .next u ∧ u.engine = t.engine) ∧
    (∀ n : Fin 4, readWindow t.engine (.digest n) = some 0 ∧ readWindow (complete t).engine (.digest n) = some 0)

/-- R128, R206: once LC = FINALIZED, UPDATE and FINAL are discarded with AFTER_FINAL, and the digest stays readable. -/
def Obligations.AfterFinalTheDigestStays : Prop :=
  ∀ (i : Instr) (s : State), i ≠ .init → s.engine.busy = false → s.engine.fault = false → s.engine.lc = .finalized →
    ∃ t : State, exec i s = .next t ∧ t.engine = { s.engine with fault := true, fcause := some .afterFinal } ∧
      t.faultLog = s.faultLog ++ [.afterFinal] ∧
      ∀ n : Fin 4, readWindow t.engine (.digest n) = readWindow s.engine (.digest n)

/-- R12: a computation that reads ⊥ faults. FINAL reads all of STATE and CKSUM and the staged bytes; UPDATE reads them on the
16th byte of a block; an open DIGEST view reads its four elements. -/
def Obligations.ReadingBottomFaults : Prop :=
  (∀ s : State, s.engine.busy = false → s.engine.fault = false → s.engine.lc = .active →
    (∃ i : Fin 16, s.engine.state[i] = .bot ∨ s.engine.cksum[i] = .bot ∨
      (i.val < s.engine.blen.toNat ∧ s.engine.buf[i] = .bot)) →
    exec .final s = .fault .bottomRead ∧
      (s.engine.blen = 15 → ∀ b : Byte, exec (.update b) s = .fault .bottomRead)) ∧
  (∀ (s : State) (addr : BitVec 5) (n : Fin 4), windowReg addr = .digest n → s.engine.lc = .finalized →
    s.engine.busy = false → (∃ i : Fin 16, i.val / 4 = n.val ∧ s.engine.state[i] = .bot) →
    hostRead addr s = .fault .bottomRead)

/-! ### The transform -/

/-- R151: S is a permutation of the byte values. -/
def Obligations.SubstitutionTableIsAPermutation : Prop :=
  ∀ b : Byte, ∃ a : Byte, sbox a = b ∧ ∀ a' : Byte, sbox a' = b → a' = a

/-- R141 to R143, R145: Mix by its loops. `w j k` is W[k] before round j and `t j` the carry before round j: every byte is
XORed with S at the byte written just before it (t before the first), the carry then adds the round's index, and the result
is the first 16 bytes after 18 rounds. -/
def Obligations.MixFollowsTheRoundLoops : Prop :=
  ∀ x m : Block, ∃ (w : Nat → Nat → Byte) (t : Nat → Byte),
    (∀ i : Fin 16, w 0 i.val = x[i] ∧ w 0 (16 + i.val) = m[i] ∧ w 0 (32 + i.val) = m[i] ^^^ x[i]) ∧
    t 0 = 0 ∧
    (∀ j : Nat, j < 18 →
      w (j + 1) 0 = w j 0 ^^^ sbox (t j) ∧
      (∀ k : Nat, k < 47 → w (j + 1) (k + 1) = w j (k + 1) ^^^ sbox (w (j + 1) k)) ∧
      t (j + 1) = w (j + 1) 47 + BitVec.ofNat 8 j) ∧
    (∀ i : Fin 16, (mix x m)[i] = w 18 i.val)

/-- R146: Fold by its loop: the carry starts at C[15] of the old checksum and is afterwards the byte written just before. -/
def Obligations.FoldFollowsTheChecksumLoop : Prop :=
  ∀ ck m : Block,
    (fold ck m)[0] = ck[0] ^^^ sbox (m[0] ^^^ ck[15]) ∧
    (∀ i : Fin 15, (fold ck m)[i.val + 1] = ck[i.val + 1] ^^^ sbox (m[i.val + 1] ^^^ (fold ck m)[i.val]))

/-- R123: the in-place fold, which reads CKSUM[i] just before overwriting it, gives what the fold of the snapshot gives. -/
def Obligations.InPlaceFoldEqualsSnapshotFold : Prop :=
  ∀ ck : Block, foldInPlace ck = fold ck ck

/-- R152: from LOAD, the reference sequencer takes 884 micro-steps and not fewer to finish, with the STATE and CKSUM of the
transform (R140 to R146). -/
def Obligations.SequencerComputesTheTransform : Prop :=
  ∀ s : Sequencer, s.micro = .load →
    (∀ n : Nat, n < microStepsPerTransform → (Sequencer.run n s).micro ≠ .done) ∧
    let r := Sequencer.run microStepsPerTransform s
    r.micro = .done ∧ r.state = mix s.state s.block ∧ r.cksum = fold s.cksum s.block ∧ microStepsPerTransform = 884

/-! ### The register window -/

/-- R53: the map of the window; R51, R52: only address bits [4:2] select, so accesses that differ in bits [1:0] are the
same access. -/
def Obligations.WindowMapIgnoresLowAddressBits : Prop :=
  windowReg 0x00 = .cmd ∧ windowReg 0x04 = .status ∧ windowReg 0x08 = .rsvd0 ∧ windowReg 0x0C = .rsvd1 ∧
  windowReg 0x10 = .digest 0 ∧ windowReg 0x14 = .digest 1 ∧ windowReg 0x18 = .digest 2 ∧ windowReg 0x1C = .digest 3 ∧
  (∀ a b : BitVec 5, a.extractLsb' 2 3 = b.extractLsb' 2 3 → ∀ (s : State) (v : Word),
    hostRead a s = hostRead b s ∧ hostWrite a v s = hostWrite b v s)

/-- R54: a STATUS read returns BLEN, FCAUSE, FAULT, BUSY and LC in their bits and 0 elsewhere. -/
def Obligations.StatusWordLayout : Prop :=
  (∀ (s : State) (addr : BitVec 5), windowReg addr = .status → hostRead addr s = .next (recordRead s (statusWord s.engine))) ∧
  (∀ e : Engine,
    (statusWord e).extractLsb' 0 2 = e.lc.code ∧ (statusWord e).getLsbD 2 = e.busy ∧ (statusWord e).getLsbD 3 = e.fault ∧
    (statusWord e).extractLsb' 4 3 = causeCode e.fcause ∧ (statusWord e).getLsbD 7 = false ∧
    (statusWord e).extractLsb' 8 4 = e.blen ∧ (statusWord e).extractLsb' 12 20 = 0) ∧
  causeCode none = 0 ∧ causeCode (some .illegalCmd) = 1 ∧ causeCode (some .uninitUse) = 2 ∧
  causeCode (some .afterFinal) = 3 ∧ causeCode (some .cmdWhileBusy) = 4

/-- R56, R62: DIGESTn shows STATE[4n..4n+4) in little-endian lanes while LC = FINALIZED and BUSY = 0, whatever FAULT is, and
0 otherwise. -/
def Obligations.DigestViewIsGated : Prop :=
  ∀ (s : State) (addr : BitVec 5) (n : Fin 4), windowReg addr = .digest n →
    (s.engine.lc = .finalized → s.engine.busy = false → ∀ x : Block, s.engine.state = ofBlock x →
      ∃ v : Word, hostRead addr s = .next (recordRead s v) ∧
        ∀ i : Fin 16, i.val / 4 = n.val → v.extractLsb' (8 * (i.val % 4)) 8 = x[i]) ∧
    ((s.engine.lc ≠ .finalized ∨ s.engine.busy = true) → hostRead addr s = .next (recordRead s 0))

/-- R57, R58, and the read of CMD in R55: the reserved words and CMD read 0, and a write to any word but CMD changes nothing. -/
def Obligations.OtherWordsReadZeroAndIgnoreWrites : Prop :=
  (∀ (s : State) (addr : BitVec 5), windowReg addr = .rsvd0 ∨ windowReg addr = .rsvd1 ∨ windowReg addr = .cmd →
    hostRead addr s = .next (recordRead s 0)) ∧
  (∀ (s : State) (addr : BitVec 5) (v : Word), windowReg addr ≠ .cmd → hostWrite addr v s = .next s)

/-- R55: a write to CMD is the only host access that can change the engine; a step whose turn is neither that nor a reset
changes at most BUSY, from 1 to 0. -/
def Obligations.OnlyCommandWritesChangeTheEngine : Prop :=
  ∀ s t : State, step s = .next t →
    (∀ (addr : BitVec 5) (v : Word) (rest : List Input), windowReg addr = .cmd →
      s.inputs ≠ .access (.write addr v) :: rest) →
    (∀ rest : List Input, s.inputs ≠ .reset :: rest ∧ s.inputs ≠ .powerLoss :: rest) →
    t.faultLog = s.faultLog ∧ t.message = s.message ∧
      (t.engine = s.engine ∨ (s.engine.busy = true ∧ t.engine = { s.engine with busy := false }))

/-- R59: a read has no side effect: it only returns a word, and reading again returns the same word. -/
def Obligations.ReadsHaveNoSideEffect : Prop :=
  ∀ (s t : State) (addr : BitVec 5), hostRead addr s = .next t →
    ∃ v : Word, t = { s with reads := s.reads ++ [v] } ∧ hostRead addr t = .next { t with reads := t.reads ++ [v] }

/-- R223: STATE, CKSUM and BUF cannot be read but through an open DIGEST view: engines with the same status fields, and the
same STATE where the view is open, return the same words. -/
def Obligations.HostSeesOnlyTheView : Prop :=
  ∀ (e f : Engine) (r : WindowReg), e.SameView f → readWindow e r = readWindow f r

/-! ### Reset, the busy period, the platform -/

/-- R37: what reset leaves, by the event and in the state after reset; STATUS and the DIGEST words then read 0. The event
always takes place. -/
def Obligations.ResetLeavesTheSpecValues : Prop :=
  (∀ e : Engine, (e = State.reset.engine ∨ ∃ (s t : State) (rest : List Input),
      (s.inputs = .reset :: rest ∨ s.inputs = .powerLoss :: rest) ∧ step s = .next t ∧ e = t.engine) →
    e.lc = .uninit ∧ e.busy = false ∧ e.fault = false ∧ e.fcause = none ∧ e.blen = 0 ∧
    (∀ i : Fin 16, e.state[i] = .bot ∧ e.cksum[i] = .bot ∧ e.buf[i] = .bot) ∧
    readWindow e .status = some 0 ∧ ∀ n : Fin 4, readWindow e (.digest n) = some 0) ∧
  (∀ (s : State) (rest : List Input), (s.inputs = .reset :: rest ∨ s.inputs = .powerLoss :: rest) →
    ∃ t : State, step s = .next t)

/-- R102: the completion step is enabled exactly when BUSY = 1, sets BUSY to 0 and changes nothing else; it may come between
any two accesses, and a reset discards it. That an engine turn with BUSY = 0 is used up, and that the engine moves when no turn
is left, are the model's choices (notes/assumptions/3.md and 2.md). -/
def Obligations.CompletionStepOnlyClearsBusy : Prop :=
  (∀ (s : State) (rest : List Input), s.inputs = .engineTurn :: rest →
    (s.engine.busy = true → step s = .next { s with engine := { s.engine with busy := false }, inputs := rest }) ∧
    (s.engine.busy = false → step s = .next { s with inputs := rest })) ∧
  (∀ s : State, s.inputs = [] →
    (s.engine.busy = true → step s = .next { s with engine := { s.engine with busy := false } }) ∧
    (s.engine.busy = false → step s = .next s)) ∧
  (∀ (s : State) (rest : List Input), s.inputs = .reset :: rest →
    ∃ t : State, step s = .next t ∧ t.engine.busy = false)

/-- Every busy period ends (R103, R250), within a bound read off the turns still to come, if none of them leaves the spec. The
ending and the bound are the model's way to meet the fairness that the spec assumes (D30): the engine moves once the list is
empty (notes/assumptions/2.md), and a WAITIDLE holds its completion step after its polls (notes/assumptions/7.md). -/
def Obligations.EveryBusyPeriodEnds : Prop :=
  ∀ s : State, s.engine.busy = true →
    (∀ a : HostAccess, .otherHost a ∉ s.inputs ∧ .accessDuringReset a ∉ s.inputs) →
    ∃ (k : Nat) (t : State),
      k ≤ (s.inputs.map fun i => match i with | .waitIdle n => n + 1 | _ => 1).sum + 1 ∧
      runSteps k s = .next t ∧ t.engine.busy = false

/-- WAITIDLE (R89) reads STATUS until it sees BUSY = 0 and changes nothing else; on an idle engine that is one read. That the
completion step of an open busy period comes inside the loop, after exactly `n` polls, is the model's choice
(notes/assumptions/7.md). -/
def Obligations.WaitIdleReturnsIdle : Prop :=
  ∀ (s : State) (n : Nat) (rest : List Input), s.inputs = .waitIdle n :: rest →
    (s.engine.busy = true → runSteps (n + 2) s = .next { s with
      engine := { s.engine with busy := false }
      reads := s.reads ++ List.replicate n (statusWord s.engine) ++ [statusWord { s.engine with busy := false }]
      inputs := rest }) ∧
    (s.engine.busy = false → step s = .next { s with reads := s.reads ++ [statusWord s.engine], inputs := rest })

/-- R245, hazard H1: a host that waits after every CMD write stays such a host, and CMD_WHILE_BUSY is never recorded. -/
def Obligations.WaitingHostNeverHitsABusyEngine : Prop :=
  ∀ s t : State, spaced s.engine.busy s.inputs = true → step s = .next t →
    spaced t.engine.busy t.inputs = true ∧
    (t.faultLog = s.faultLog ∨ ∃ c : Cause, c ≠ .cmdWhileBusy ∧ t.faultLog = s.faultLog ++ [c])

/-- R222, R240 (U18, U19): the runs outside the spec are refused. -/
def Obligations.RunsOutsideTheSpecAreRefused : Prop :=
  ∀ (s : State) (a : HostAccess) (rest : List Input),
    (s.inputs = .otherHost a :: rest → step s = .refused .otherHost) ∧
    (s.inputs = .accessDuringReset a :: rest → step s = .refused .accessDuringReset)

/-- R222: the engines of a platform share nothing: a step of one is a step of its own machine and leaves every other machine
as it is. -/
def Obligations.EnginesOfAPlatformAreIsolated : Prop :=
  ∀ (n : Nat) (p q : Platform n) (k : Fin n), p.stepAt k = .next q →
    step p.machines[k] = .next q.machines[k] ∧ ∀ j : Fin n, j ≠ k → q.machines[j] = p.machines[j]

/-- R50, R51, R222: the bus address ENGINE_BASE + off lies in the window of that engine and of no other, and shows it the
offset; ENGINE_BASE is aligned to 32 bytes; a bus read or write there is the engine's next access. That an address in no
window is refused is the model's choice (notes/assumptions/9.md). -/
def Obligations.BusAddressReachesItsWindow : Prop :=
  (∀ (k : Nat) (off : BitVec 5), Config.engineBase k % 32 = 0 ∧ windowAddress (busAddress k off) = off ∧
    ∀ j : Nat, inWindow j (busAddress k off) = true ↔ j = k) ∧
  (∀ (n : Nat) (p : Platform n) (k : Fin n) (off : BitVec 5),
    p.busRead (busAddress k.val off) = p.accessAt k (.read off) ∧
    ∀ v : Word, p.busWrite (busAddress k.val off) v = p.accessAt k (.write off v)) ∧
  (∀ (n : Nat) (p : Platform n) (k : Fin n) (a : HostAccess) (q : Platform n), p.accessAt k a = .next q →
    step { p.machines[k] with inputs := .access a :: p.machines[k].inputs } = .next q.machines[k] ∧
      ∀ j : Fin n, j ≠ k → q.machines[j] = p.machines[j]) ∧
  (∀ (n : Nat) (p : Platform n) (addr : Nat), (∀ k : Fin n, inWindow k.val addr = false) →
    p.busRead addr = .refused .outsideWindow ∧ ∀ v : Word, p.busWrite addr v = .refused .outsideWindow)

/-! ### Invariants and the whole machine -/

/-- The invariants of R34, R36 and R125 hold after reset. That the fault log and the message are empty there is the model's
choice (notes/assumptions/11.md). -/
def Obligations.ResetMeetsTheInvariants : Prop :=
  State.reset.Inv ∧ State.reset.DigestInv ∧ State.reset.Safe

/-- R34, R36: every step keeps the register invariants. -/
def Obligations.StepKeepsTheRegisterInvariants : Prop :=
  ∀ s t : State, s.Inv → step s = .next t → t.Inv

/-- R125: every step keeps the digest invariant: while LC = ACTIVE the engine holds the message so far, and once
LC = FINALIZED STATE is its MD2. -/
def Obligations.StepKeepsTheDigestInvariant : Prop :=
  ∀ s t : State, s.DigestInv → step s = .next t → t.DigestInv

/-- R125, R62: with the digest invariant, an open DIGEST view returns MD2 of the message, byte i of it in bits
[8*(i mod 4)+7 : 8*(i mod 4)] of DIGEST(i div 4), even while FAULT = 1. -/
def Obligations.OpenViewReturnsMd2 : Prop :=
  ∀ s : State, s.DigestInv → s.engine.lc = .finalized → s.engine.busy = false →
    ∀ (addr : BitVec 5) (i : Fin 16), windowReg addr = .digest ⟨i.val / 4, by omega⟩ →
      ∃ v : Word, hostRead addr s = .next (recordRead s v) ∧ v.extractLsb' (8 * (i.val % 4)) 8 = (md2 s.message)[i]

/-- R34, R35: from a state that meets the register invariants no step reads ⊥. -/
def Obligations.NoStepReadsBottom : Prop :=
  ∀ (s : State) (f : Fault), s.Inv → step s ≠ .fault f

/-- R34, R35, N6: elements that are written before they are read influence nothing: two machines alike but for them answer the
same way, and stay alike. -/
def Obligations.StaleElementsInfluenceNothing : Prop :=
  ∀ s t : State, s.SameLive t →
    (∀ s' : State, step s = .next s' → ∃ t' : State, step t = .next t' ∧ s'.SameLive t') ∧
    (∀ f : Fault, step s = .fault f → step t = .fault f) ∧
    (∀ r : Refusal, step s = .refused r → step t = .refused r)

/-- R89, R125 to R127: the pseudo-instruction HASH, from any state with BUSY = 0 and whatever the registers hold, records no
fault and ends with the four digest words of MD2 of its bytes, however often each of its WAITIDLEs polls. That each WAITIDLE
ends is the model's choice (notes/assumptions/7.md). -/
def Obligations.HashReadsMd2OfItsBytes : Prop :=
  ∀ (s : State) (initPolls finalPolls : Nat) (bytes : List TimedByte) (rest : List Input), s.engine.busy = false →
    s.inputs = asmHash initPolls bytes finalPolls ++ rest →
    let d := md2 (bytes.map TimedByte.byte)
    ∃ (k : Nat) (t : State) (polled : List Word), runSteps k s = .next t ∧ t.inputs = rest ∧
      t.engine.lc = .finalized ∧ t.engine.busy = false ∧ t.engine.fault = false ∧ t.faultLog = s.faultLog ∧
      t.reads = s.reads ++ polled ++ (List.finRange 4).map fun n =>
        lanesWord d[4 * n.val] d[4 * n.val + 1] d[4 * n.val + 2] d[4 * n.val + 3]

/-- R90, R126: how a message is split into ABSORBs makes no difference to the accesses, and an ABSORB of no bytes is no
access. -/
def Obligations.SplittingAMessageChangesNothing : Prop :=
  (∀ chunks : List (List TimedByte), chunks.flatMap asmAbsorb = asmAbsorb chunks.flatten) ∧ asmAbsorb [] = []
end

