-- ==== Sys2Proof/Laws/Operands.lean ====
section
/-! SUPPORT. What reading a data register gives (R12), and what the staging and padding of BUF leave in each element. -/

namespace Sys2Proof.Machine

theorem elemBytes_map_byte (l : List Byte) : elemBytes (l.map Elem.byte) = some l := by
  induction l with
  | nil => rfl
  | cons b bs ih => simp [elemBytes, Elem.value, ih]

/-- A list of elements has bytes exactly when it is a list of bytes. -/
theorem elemBytes_eq_some (l : List Elem) : ∀ bs : List Byte, elemBytes l = some bs ↔ l = bs.map Elem.byte := by
  induction l with
  | nil => intro bs; cases bs <;> simp [elemBytes]
  | cons e es ih =>
    intro bs
    constructor
    · intro h
      unfold elemBytes at h
      split at h
      · next b bs' hb hes =>
        cases h
        cases e with
        | bot => simp [Elem.value] at hb
        | byte b' =>
          simp only [Elem.value, Option.some.injEq] at hb
          simp [hb, (ih bs').1 hes]
      · cases h
    · intro h
      rw [h, elemBytes_map_byte]

@[simp] theorem readBlock_ofBlock (m : Block) : readBlock (ofBlock m) = some m := by
  have h : elemBytes (ofBlock m).toList = some m.toList := by
    have : (ofBlock m).toList = m.toList.map Elem.byte := by simp [ofBlock, Vector.toList_map]
    rw [this, elemBytes_map_byte]
  unfold readBlock
  split
  · next bs hbs =>
    rw [h] at hbs
    cases hbs
    simp [Vector.toList]
  · next hbs => rw [h] at hbs; cases hbs

/-- Reading a register gives a block exactly when the register holds it; a register with an element ⊥ gives none. -/
theorem readBlock_eq_some (r : DataReg) (m : Block) : readBlock r = some m ↔ r = ofBlock m := by
  constructor
  · intro h
    unfold readBlock at h
    split at h
    · next bs hbs =>
      cases h
      have := (elemBytes_eq_some _ _).1 hbs
      apply Vector.toList_inj.1
      simp [ofBlock, this]
    · cases h
  · rintro rfl
    exact readBlock_ofBlock m

@[simp] theorem ofBlock_get (m : Block) (i : Nat) (h : i < 16) : (ofBlock m)[i] = .byte m[i] := by simp [ofBlock]

theorem ofBlock_inj (m n : Block) : ofBlock m = ofBlock n ↔ m = n := by
  constructor
  · intro h
    have := congrArg readBlock h
    simpa using this
  · rintro rfl; rfl

/-- A register without ⊥ holds a block. -/
theorem exists_ofBlock (r : DataReg) (h : ∀ i : Fin 16, r[i] ≠ .bot) : ∃ m : Block, r = ofBlock m := by
  refine ⟨Vector.ofFn fun i => (r[i].value).getD 0, ?_⟩
  ext i hi
  · have hb := h ⟨i, hi⟩
    cases he : r[i] with
    | bot => exact absurd he hb
    | byte b => simp [he, Elem.value]

/-- A register with an element ⊥ cannot be read (R12). -/
theorem readBlock_eq_none (r : DataReg) (i : Fin 16) (h : r[i] = .bot) : readBlock r = none := by
  cases hr : readBlock r with
  | none => rfl
  | some m =>
    rw [(readBlock_eq_some r m).1 hr] at h
    simp at h

theorem stageByte_get (buf : DataReg) (blen : BitVec 4) (b : Byte) (i : Nat) (h : i < 16) :
    (stageByte buf blen b)[i] = if i = blen.toNat then .byte b else buf[i] := by
  unfold stageByte
  rw [Vector.getElem_set]
  simp only [eq_comm]

theorem padBuffer_get (buf : DataReg) (blen : BitVec 4) (i : Nat) (h : i < 16) :
    (padBuffer buf blen)[i] = if i < blen.toNat then buf[i] else .byte (BitVec.ofNat 8 (16 - blen.toNat)) := by
  simp [padBuffer, padLength]

end Sys2Proof.Machine
end

