-- ==== Sys2Proof/Laws/State.lean ====
section
/-! SUPPORT. What each named update leaves in each field of the state: one lemma per field per update, so that no later proof
unfolds a record update. -/

namespace Sys2Proof.Machine

section raiseFault
variable (c : Cause) (s : State)
@[simp] theorem raiseFault_engine : (raiseFault c s).engine = s.engine.recordFault c := rfl
@[simp] theorem raiseFault_faultLog : (raiseFault c s).faultLog = s.faultLog ++ [c] := rfl
@[simp] theorem raiseFault_message : (raiseFault c s).message = s.message := rfl
@[simp] theorem raiseFault_reads : (raiseFault c s).reads = s.reads := rfl
@[simp] theorem raiseFault_inputs : (raiseFault c s).inputs = s.inputs := rfl
end raiseFault

section complete
variable (s : State)
@[simp] theorem complete_state : (complete s).engine.state = s.engine.state := rfl
@[simp] theorem complete_cksum : (complete s).engine.cksum = s.engine.cksum := rfl
@[simp] theorem complete_buf : (complete s).engine.buf = s.engine.buf := rfl
@[simp] theorem complete_blen : (complete s).engine.blen = s.engine.blen := rfl
@[simp] theorem complete_lc : (complete s).engine.lc = s.engine.lc := rfl
@[simp] theorem complete_busy : (complete s).engine.busy = false := rfl
@[simp] theorem complete_fault : (complete s).engine.fault = s.engine.fault := rfl
@[simp] theorem complete_fcause : (complete s).engine.fcause = s.engine.fcause := rfl
@[simp] theorem complete_faultLog : (complete s).faultLog = s.faultLog := rfl
@[simp] theorem complete_message : (complete s).message = s.message := rfl
@[simp] theorem complete_reads : (complete s).reads = s.reads := rfl
@[simp] theorem complete_inputs : (complete s).inputs = s.inputs := rfl
end complete

section resetEngine
variable (s : State)
@[simp] theorem resetEngine_engine : (resetEngine s).engine = Engine.reset := rfl
@[simp] theorem resetEngine_faultLog : (resetEngine s).faultLog = s.faultLog := rfl
@[simp] theorem resetEngine_message : (resetEngine s).message = [] := rfl
@[simp] theorem resetEngine_reads : (resetEngine s).reads = s.reads := rfl
@[simp] theorem resetEngine_inputs : (resetEngine s).inputs = s.inputs := rfl
end resetEngine

section recordRead
variable (s : State) (v : Word)
@[simp] theorem recordRead_engine : (recordRead s v).engine = s.engine := rfl
@[simp] theorem recordRead_faultLog : (recordRead s v).faultLog = s.faultLog := rfl
@[simp] theorem recordRead_message : (recordRead s v).message = s.message := rfl
@[simp] theorem recordRead_reads : (recordRead s v).reads = s.reads ++ [v] := rfl
@[simp] theorem recordRead_inputs : (recordRead s v).inputs = s.inputs := rfl
end recordRead

section pushInput
variable (s : State) (i : Input)
@[simp] theorem pushInput_engine : (pushInput s i).engine = s.engine := rfl
@[simp] theorem pushInput_faultLog : (pushInput s i).faultLog = s.faultLog := rfl
@[simp] theorem pushInput_message : (pushInput s i).message = s.message := rfl
@[simp] theorem pushInput_reads : (pushInput s i).reads = s.reads := rfl
@[simp] theorem pushInput_inputs : (pushInput s i).inputs = i :: s.inputs := rfl
end pushInput

section recordFault
variable (e : Engine) (c : Cause)

/-- R202 when no fault is recorded yet. -/
theorem recordFault_of_clear (h : e.fault = false) : e.recordFault c = { e with fault := true, fcause := some c } := by
  simp [Engine.recordFault, h]

/-- R202 when a fault is recorded already: the first cause is kept. -/
theorem recordFault_of_fault (h : e.fault = true) : e.recordFault c = e := by
  simp [Engine.recordFault, h]

@[simp] theorem recordFault_state : (e.recordFault c).state = e.state := by unfold Engine.recordFault; split <;> rfl
@[simp] theorem recordFault_cksum : (e.recordFault c).cksum = e.cksum := by unfold Engine.recordFault; split <;> rfl
@[simp] theorem recordFault_buf : (e.recordFault c).buf = e.buf := by unfold Engine.recordFault; split <;> rfl
@[simp] theorem recordFault_blen : (e.recordFault c).blen = e.blen := by unfold Engine.recordFault; split <;> rfl
@[simp] theorem recordFault_lc : (e.recordFault c).lc = e.lc := by unfold Engine.recordFault; split <;> rfl
@[simp] theorem recordFault_busy : (e.recordFault c).busy = e.busy := by unfold Engine.recordFault; split <;> rfl
@[simp] theorem recordFault_fault : (e.recordFault c).fault = true := by
  unfold Engine.recordFault; split <;> simp_all
end recordFault

section doInit
variable (e : Engine)
@[simp] theorem doInit_state : (doInit e).state = zeroReg := rfl
@[simp] theorem doInit_cksum : (doInit e).cksum = zeroReg := rfl
@[simp] theorem doInit_buf : (doInit e).buf = e.buf := rfl
@[simp] theorem doInit_blen : (doInit e).blen = 0 := rfl
@[simp] theorem doInit_lc : (doInit e).lc = .active := rfl
@[simp] theorem doInit_busy : (doInit e).busy = e.busy := rfl
@[simp] theorem doInit_fault : (doInit e).fault = false := rfl
@[simp] theorem doInit_fcause : (doInit e).fcause = none := rfl
end doInit

section reset
@[simp] theorem reset_state (i : Nat) (h : i < 16) : Engine.reset.state[i] = .bot := by simp [Engine.reset, DataReg.allBot]
@[simp] theorem reset_cksum (i : Nat) (h : i < 16) : Engine.reset.cksum[i] = .bot := by simp [Engine.reset, DataReg.allBot]
@[simp] theorem reset_buf (i : Nat) (h : i < 16) : Engine.reset.buf[i] = .bot := by simp [Engine.reset, DataReg.allBot]
@[simp] theorem reset_blen : Engine.reset.blen = 0 := rfl
@[simp] theorem reset_lc : Engine.reset.lc = .uninit := rfl
@[simp] theorem reset_busy : Engine.reset.busy = false := rfl
@[simp] theorem reset_fault : Engine.reset.fault = false := rfl
@[simp] theorem reset_fcause : Engine.reset.fcause = none := rfl
end reset

end Sys2Proof.Machine
end

