-- ==== Sys2Proof/Laws/Commands.lean ====
section
/-! SUPPORT. Everything a transform and a command can do, said once: the inversion of each shared operation and of each
meaning. -/

namespace Sys2Proof.Machine

/-- What a transform does to an engine (R140), and when it reads no ⊥. -/
theorem transform_eq_some (e e' : Engine) (m : Block) :
    e.transform m = some e' ↔
      ∃ x ck, e.state = ofBlock x ∧ e.cksum = ofBlock ck ∧
        e' = { e with state := ofBlock (mix x m), cksum := ofBlock (fold ck m) } := by
  constructor
  · intro h
    unfold Engine.transform at h
    split at h
    · next x ck hx hck =>
      cases h
      exact ⟨x, ck, (readBlock_eq_some _ _).1 hx, (readBlock_eq_some _ _).1 hck, rfl⟩
    · cases h
  · rintro ⟨x, ck, hx, hck, rfl⟩
    simp [Engine.transform, hx, hck]

/-- What UPDATE does to the engine (R115). -/
theorem doUpdate_eq_some (b : Byte) (e e' : Engine) :
    doUpdate b e = some e' ↔
      (e.blen ≠ 15 ∧ e' = { e with buf := stageByte e.buf e.blen b, blen := e.blen + 1 }) ∨
      (e.blen = 15 ∧ ∃ x ck m, e.state = ofBlock x ∧ e.cksum = ofBlock ck ∧ stageByte e.buf e.blen b = ofBlock m ∧
        e' = { e with state := ofBlock (mix x m), cksum := ofBlock (fold ck m), buf := ofBlock m, blen := 0 }) := by
  unfold doUpdate
  by_cases hb : e.blen = 15
  · rw [if_pos hb]
    simp only [Option.bind_eq_some_iff, Option.map_eq_some_iff, transform_eq_some, readBlock_eq_some]
    constructor
    · rintro ⟨m, hm, _, ⟨x, ck, hx, hck, rfl⟩, rfl⟩
      exact .inr ⟨hb, x, ck, m, hx, hck, hm, by simp only [hm]⟩
    · rintro (⟨h, -⟩ | ⟨-, x, ck, m, hx, hck, hm, rfl⟩)
      · exact absurd hb h
      · exact ⟨m, hm, _, ⟨x, ck, hx, hck, rfl⟩, by simp only [hm]⟩
  · rw [if_neg hb]
    constructor
    · intro h
      exact .inl ⟨hb, (Option.some.inj h).symm⟩
    · rintro (⟨-, rfl⟩ | ⟨h, -⟩)
      · rfl
      · exact absurd h hb

/-- What FINAL does to the engine (R120): the second block is the checksum that the first transform left (R123). -/
theorem doFinal_eq_some (e e' : Engine) :
    doFinal e = some e' ↔
      ∃ x ck m, e.state = ofBlock x ∧ e.cksum = ofBlock ck ∧ padBuffer e.buf e.blen = ofBlock m ∧
        e' = { e with
          state := ofBlock (mix (mix x m) (fold ck m)), cksum := ofBlock (fold (fold ck m) (fold ck m)),
          buf := ofBlock m, blen := 0, lc := .finalized } := by
  unfold doFinal
  simp only [Option.bind_eq_some_iff, Option.map_eq_some_iff, transform_eq_some, readBlock_eq_some]
  constructor
  · rintro ⟨m, hm, _, ⟨x, ck, hx, hck, rfl⟩, c, hc, _, ⟨x', ck', hx', hck', rfl⟩, rfl⟩
    simp only [ofBlock_inj] at hc hx' hck'
    subst hc hx' hck'
    exact ⟨x, ck, m, hx, hck, hm, by simp [hm]⟩
  · rintro ⟨x, ck, m, hx, hck, hm, rfl⟩
    exact ⟨m, hm, _, ⟨x, ck, hx, hck, rfl⟩, fold ck m, rfl, _, ⟨mix x m, fold ck m, rfl, rfl, rfl⟩, by simp [hm]⟩

/-- UPDATE leaves LC, FAULT and FCAUSE (R115). -/
theorem doUpdate_keeps (b : Byte) (e e' : Engine) (h : doUpdate b e = some e') :
    e'.lc = e.lc ∧ e'.fault = e.fault ∧ e'.fcause = e.fcause := by
  rcases (doUpdate_eq_some _ _ _).1 h with ⟨-, rfl⟩ | ⟨-, x, ck, m, -, -, -, rfl⟩ <;> exact ⟨rfl, rfl, rfl⟩

/-- FINAL leaves FAULT and FCAUSE and ends in FINALIZED with BLEN = 0 (R120). -/
theorem doFinal_keeps (e e' : Engine) (h : doFinal e = some e') :
    e'.lc = .finalized ∧ e'.blen = 0 ∧ e'.fault = e.fault ∧ e'.fcause = e.fcause := by
  obtain ⟨x, ck, m, -, -, -, rfl⟩ := (doFinal_eq_some _ _).1 h
  exact ⟨rfl, rfl, rfl, rfl⟩

/-- The state in which a command has been accepted: its effect, and `BUSY <- 1`. -/
def accepted (s : State) (e : Engine) (message : List Byte) : State :=
  { s with engine := { e with busy := true }, message := message }

section accepted
variable (s : State) (e : Engine) (m : List Byte)
@[simp] theorem accepted_state : (accepted s e m).engine.state = e.state := rfl
@[simp] theorem accepted_cksum : (accepted s e m).engine.cksum = e.cksum := rfl
@[simp] theorem accepted_buf : (accepted s e m).engine.buf = e.buf := rfl
@[simp] theorem accepted_blen : (accepted s e m).engine.blen = e.blen := rfl
@[simp] theorem accepted_lc : (accepted s e m).engine.lc = e.lc := rfl
@[simp] theorem accepted_busy : (accepted s e m).engine.busy = true := rfl
@[simp] theorem accepted_fault : (accepted s e m).engine.fault = e.fault := rfl
@[simp] theorem accepted_fcause : (accepted s e m).engine.fcause = e.fcause := rfl
@[simp] theorem accepted_faultLog : (accepted s e m).faultLog = s.faultLog := rfl
@[simp] theorem accepted_message : (accepted s e m).message = m := rfl
@[simp] theorem accepted_reads : (accepted s e m).reads = s.reads := rfl
@[simp] theorem accepted_inputs : (accepted s e m).inputs = s.inputs := rfl
end accepted

theorem accept_some (s : State) (e : Engine) (m : List Byte) : accept s (some e) m = .next (accepted s e m) := rfl

theorem accept_eq_next (s t : State) (r : Option Engine) (m : List Byte) :
    accept s r m = .next t ↔ ∃ e, r = some e ∧ t = accepted s e m := by
  cases r with
  | none => simp [accept]
  | some e => simp [accept_some, eq_comm]

/-- The busy check decides first (R100). -/
theorem whenIdle_busy (s : State) (k : State → Host.Outcome State Fault Refusal) (h : s.engine.busy = true) :
    whenIdle s k = .next (raiseFault .cmdWhileBusy s) := by
  simp [whenIdle, h]

theorem whenIdle_idle (s : State) (k : State → Host.Outcome State Fault Refusal) (h : s.engine.busy = false) :
    whenIdle s k = k s := by
  simp [whenIdle, h]

theorem whenActive_active (s : State) (k : State → Host.Outcome State Fault Refusal) (hf : s.engine.fault = false)
    (hl : s.engine.lc = .active) : whenActive s k = k s := by
  simp [whenActive, hf, hl]

/-- With BUSY = 1 every command is discarded with CMD_WHILE_BUSY (R201). -/
theorem exec_busy (i : Instr) (s : State) (h : s.engine.busy = true) : exec i s = .next (raiseFault .cmdWhileBusy s) := by
  cases i with
  | init => simp only [exec, execInit, whenIdle_busy s _ h]
  | update b => simp only [exec, execUpdate, whenIdle_busy s _ h]
  | final => simp only [exec, execFinal, whenIdle_busy s _ h]

/-- Everything INIT can do (R110). -/
theorem execInit_next (s t : State) :
    execInit s = .next t ↔
      (s.engine.busy = true ∧ t = raiseFault .cmdWhileBusy s) ∨
      (s.engine.busy = false ∧ t = accepted s (doInit s.engine) []) := by
  cases h : s.engine.busy <;> simp [execInit, whenIdle, h, accept_some, eq_comm]

/-- Everything a command that needs LC = ACTIVE can do, up to its effect (R100). -/
theorem whenIdleActive_next (s t : State) (r : State → Option Engine) (m : State → List Byte) :
    (whenIdle s fun s => whenActive s fun s => accept s (r s) (m s)) = .next t ↔
      (s.engine.busy = true ∧ t = raiseFault .cmdWhileBusy s) ∨
      (s.engine.busy = false ∧ s.engine.fault = true ∧ t = s) ∨
      (s.engine.busy = false ∧ s.engine.fault = false ∧ s.engine.lc = .uninit ∧ t = raiseFault .uninitUse s) ∨
      (s.engine.busy = false ∧ s.engine.fault = false ∧ s.engine.lc = .finalized ∧ t = raiseFault .afterFinal s) ∨
      (s.engine.busy = false ∧ s.engine.fault = false ∧ s.engine.lc = .active ∧
        ∃ e, r s = some e ∧ t = accepted s e (m s)) := by
  have next_iff : ∀ u : State, (Host.Outcome.next u : Host.Outcome State Fault Refusal) = .next t ↔ t = u := fun u =>
    ⟨fun h => by cases h; rfl, fun h => by rw [h]⟩
  cases h : s.engine.busy
  · rw [whenIdle_idle _ _ h]
    cases hf : s.engine.fault
    · cases hl : s.engine.lc
      · simp [whenActive, hf, hl, next_iff]
      · simp [whenActive_active _ _ hf hl, accept_eq_next]
      · simp [whenActive, hf, hl, next_iff]
    · simp [whenActive, hf, next_iff]
  · rw [whenIdle_busy _ _ h]
    simp [next_iff]

/-- Everything UPDATE can do (R115). -/
theorem execUpdate_next (b : Byte) (s t : State) :
    execUpdate b s = .next t ↔
      (s.engine.busy = true ∧ t = raiseFault .cmdWhileBusy s) ∨
      (s.engine.busy = false ∧ s.engine.fault = true ∧ t = s) ∨
      (s.engine.busy = false ∧ s.engine.fault = false ∧ s.engine.lc = .uninit ∧ t = raiseFault .uninitUse s) ∨
      (s.engine.busy = false ∧ s.engine.fault = false ∧ s.engine.lc = .finalized ∧ t = raiseFault .afterFinal s) ∨
      (s.engine.busy = false ∧ s.engine.fault = false ∧ s.engine.lc = .active ∧
        ∃ e, doUpdate b s.engine = some e ∧ t = accepted s e (s.message ++ [b])) :=
  whenIdleActive_next s t (fun s => doUpdate b s.engine) (fun s => s.message ++ [b])

/-- Everything FINAL can do (R120). -/
theorem execFinal_next (s t : State) :
    execFinal s = .next t ↔
      (s.engine.busy = true ∧ t = raiseFault .cmdWhileBusy s) ∨
      (s.engine.busy = false ∧ s.engine.fault = true ∧ t = s) ∨
      (s.engine.busy = false ∧ s.engine.fault = false ∧ s.engine.lc = .uninit ∧ t = raiseFault .uninitUse s) ∨
      (s.engine.busy = false ∧ s.engine.fault = false ∧ s.engine.lc = .finalized ∧ t = raiseFault .afterFinal s) ∨
      (s.engine.busy = false ∧ s.engine.fault = false ∧ s.engine.lc = .active ∧
        ∃ e, doFinal s.engine = some e ∧ t = accepted s e s.message) :=
  whenIdleActive_next s t (fun s => doFinal s.engine) (fun s => s.message)

/-- Everything an illegal word can do (R85). -/
theorem discardIllegal_next (s t : State) :
    discardIllegal s = .next t ↔
      (s.engine.busy = true ∧ t = raiseFault .cmdWhileBusy s) ∨
      (s.engine.busy = false ∧ t = raiseFault .illegalCmd s) := by
  cases h : s.engine.busy <;> simp [discardIllegal, whenIdle, h, eq_comm]

/-- A command that needs LC = ACTIVE stops only when it is accepted and its effect is none. -/
theorem whenIdleActive_stop (s : State) (r : State → Option Engine) (m : State → List Byte) :
    (∃ t, (whenIdle s fun s => whenActive s fun s => accept s (r s) (m s)) = .next t) ∨
      (s.engine.busy = false ∧ s.engine.fault = false ∧ s.engine.lc = .active ∧ r s = none ∧
        (whenIdle s fun s => whenActive s fun s => accept s (r s) (m s)) = .fault .bottomRead) := by
  cases h : s.engine.busy
  · rw [whenIdle_idle _ _ h]
    cases hf : s.engine.fault
    · cases hl : s.engine.lc
      · exact .inl ⟨_, by simp only [whenActive, hf, hl]; rfl⟩
      · rw [whenActive_active _ _ hf hl]
        cases hr : r s with
        | some e => exact .inl ⟨_, accept_some _ _ _⟩
        | none => exact .inr ⟨rfl, rfl, rfl, rfl, rfl⟩
      · exact .inl ⟨_, by simp only [whenActive, hf, hl]; rfl⟩
    · exact .inl ⟨s, by simp [whenActive, hf]⟩
  · exact .inl ⟨_, whenIdle_busy _ _ h⟩

/-- A command either goes on or is an accepted one whose effect reads ⊥ (R12); it is never refused. -/
theorem exec_stop (i : Instr) (s : State) :
    (∃ t, exec i s = .next t) ∨
      (s.engine.busy = false ∧ s.engine.fault = false ∧ s.engine.lc = .active ∧ exec i s = .fault .bottomRead ∧
        ((∃ b, i = .update b ∧ doUpdate b s.engine = none) ∨ (i = .final ∧ doFinal s.engine = none))) := by
  cases i with
  | init =>
    cases h : s.engine.busy
    · exact .inl ⟨_, (execInit_next _ _).2 (.inr ⟨h, rfl⟩)⟩
    · exact .inl ⟨_, (execInit_next _ _).2 (.inl ⟨h, rfl⟩)⟩
  | update b =>
    rcases whenIdleActive_stop s (fun s => doUpdate b s.engine) (fun s => s.message ++ [b]) with h | ⟨h1, h2, h3, h4, h5⟩
    · exact .inl h
    · exact .inr ⟨h1, h2, h3, h5, .inl ⟨b, rfl, h4⟩⟩
  | final =>
    rcases whenIdleActive_stop s (fun s => doFinal s.engine) (fun s => s.message) with h | ⟨h1, h2, h3, h4, h5⟩
    · exact .inl h
    · exact .inr ⟨h1, h2, h3, h5, .inr ⟨rfl, h4⟩⟩

end Sys2Proof.Machine
end

