-- ==== Sys2Proof/Laws/Decode.lean ====
section
/-! SUPPORT. The field laws of the command word: reading the fields of a word that was put together from fields, and putting
together the fields that were read (R80, R81); and which fields the decoder accepts (R86). -/

namespace Sys2Proof

@[simp] theorem ofWord_toWord (f : CommandFields) : CommandFields.ofWord f.toWord = f := by
  cases f with
  | mk rsvh op rsvm data =>
    simp only [CommandFields.ofWord, CommandFields.toWord, CommandFields.mk.injEq]
    refine ⟨?_, ?_, ?_, ?_⟩ <;>
    · ext i hi
      simp only [BitVec.getElem_extractLsb', BitVec.getLsbD_append]
      repeat' split
      all_goals first | omega | skip
      all_goals (rw [← BitVec.getLsbD_eq_getElem]; congr 1; omega)

@[simp] theorem toWord_ofWord (c : Word) : (CommandFields.ofWord c).toWord = c := by
  apply BitVec.eq_of_getLsbD_eq
  intro i hi
  simp only [CommandFields.ofWord, CommandFields.toWord, BitVec.getLsbD_append, BitVec.getLsbD_extractLsb']
  repeat' split
  all_goals (rw [decide_eq_true (by omega), Bool.true_and]; congr 1; omega)

/-- What the decoder accepts, in terms of the fields (R86). -/
theorem decode_eq_ok (c : Word) (i : Instr) : decode c = .ok i ↔ CommandFields.ofWord c = i.fields := by
  generalize hf : CommandFields.ofWord c = f
  cases f with
  | mk rsvh op rsvm data =>
    constructor
    · intro h
      unfold decode at h
      rw [hf] at h
      simp only at h
      repeat' split at h
      all_goals first
        | (cases h; simp_all [Instr.fields])
        | cases h
    · intro h
      unfold decode
      rw [hf]
      cases i <;> simp only [Instr.fields, CommandFields.mk.injEq] at h <;> obtain ⟨rfl, rfl, rfl, rfl⟩ := h <;> simp

/-- A word decodes to an instruction exactly when it is that instruction's word (R83). -/
theorem decode_eq_ok_iff_encode (c : Word) (i : Instr) : decode c = .ok i ↔ c = encode i := by
  rw [decode_eq_ok]
  constructor
  · intro h
    rw [encode, ← h, toWord_ofWord]
  · rintro rfl
    rw [encode, ofWord_toWord]

end Sys2Proof
end

