-- ==== Sys2Proof/Laws/Flags.lean ====
section
/-! SUPPORT. The bits of STATUS (R54). -/

namespace Sys2Proof.Machine

theorem statusWord_getLsbD (e : Engine) (i : Nat) (h : i < 32) :
    (statusWord e).getLsbD i =
      if i < 2 then e.lc.code.getLsbD i
      else if i = 2 then e.busy
      else if i = 3 then e.fault
      else if i < 7 then (causeCode e.fcause).getLsbD (i - 4)
      else if i = 7 then false
      else if i < 12 then e.blen.getLsbD (i - 8)
      else false := by
  simp only [statusWord, flagBit, BitVec.getLsbD_or, BitVec.getLsbD_shiftLeft, BitVec.getLsbD_setWidth,
    BitVec.getLsbD_ofBool]
  interval_cases i <;> simp

/-- STATUS[2] is BUSY (R54). -/
@[simp] theorem busyBit_statusWord (e : Engine) : busyBit (statusWord e) = e.busy := by
  rw [busyBit, statusWord_getLsbD e 2 (by omega)]
  rfl

end Sys2Proof.Machine
end

