-- ==== Sys2Proof/Laws/Bus.lean ====
section
/-! SUPPORT. Everything one access, one turn and one step can do, said once: `step_cases` names every way a step can answer a
next state, and `step_engine_cases` says the same of the engine, the fault log and the message alone. -/

namespace Sys2Proof.Machine

@[simp] theorem windowReg_offset (r : WindowReg) : windowReg (windowOffset r) = r := by
  cases r with
  | digest n => fin_cases n <;> decide
  | _ => decide

/-- What a DIGEST word shows of a register without ⊥ (R56). -/
theorem digestLanes_ofBlock (x : Block) (n : Fin 4) :
    digestLanes (ofBlock x) n =
      some (lanesWord x[4 * n.val] x[4 * n.val + 1] x[4 * n.val + 2] x[4 * n.val + 3]) := by
  simp [digestLanes, Elem.value]

/-- A host read records what the window shows and changes nothing else (R59). -/
theorem hostRead_next (addr : BitVec 5) (s t : State) :
    hostRead addr s = .next t ↔ ∃ v, readWindow s.engine (windowReg addr) = some v ∧ t = recordRead s v := by
  unfold hostRead
  cases readWindow s.engine (windowReg addr) with
  | none => simp
  | some v => simp [eq_comm]

/-- A window read gives a word unless the DIGEST view is open. -/
theorem readWindow_some_of_closed (e : Engine) (r : WindowReg) (h : digestOpen e = false) :
    ∃ v, readWindow e r = some v := by
  cases r <;> simp [readWindow, h]

/-- A host write to a word other than CMD is ignored (R57, R58). -/
theorem hostWrite_ignored (addr : BitVec 5) (v : Word) (s : State) (h : windowReg addr ≠ .cmd) :
    hostWrite addr v s = .next s := by
  unfold hostWrite
  split <;> simp_all

theorem hostWrite_cmd (addr : BitVec 5) (v : Word) (s : State) (h : windowReg addr = .cmd) :
    hostWrite addr v s = writeCommand v s := by
  simp [hostWrite, h]

theorem writeCommand_ok (c : Word) (i : Instr) (s : State) (h : decode c = .ok i) : writeCommand c s = exec i s := by
  simp [writeCommand, h]

theorem writeCommand_error (c : Word) (e : Illegal) (s : State) (h : decode c = .error e) :
    writeCommand c s = discardIllegal s := by
  simp [writeCommand, h]

theorem step_nil (s : State) (h : s.inputs = []) : step s = .next (engineTurn s) := by
  simp [step, h]

theorem step_cons (s : State) (i : Input) (rest : List Input) (h : s.inputs = i :: rest) :
    step s = takeInput i { s with inputs := rest } := by
  simp [step, h]

/-- A poll of WAITIDLE records STATUS, and goes round again exactly while BUSY = 1 (R89). -/
theorem pollStatus_eq (n : Nat) (s : State) :
    pollStatus n s =
      if s.engine.busy then pushInput (recordRead s (statusWord s.engine)) (.waitIdle n)
      else recordRead s (statusWord s.engine) := by
  simp [pollStatus]

/-- A turn of the engine leaves it alone or ends the busy period (R102). -/
theorem engineTurn_cases (s : State) :
    (s.engine.busy = false ∧ engineTurn s = s) ∨ (s.engine.busy = true ∧ engineTurn s = complete s) := by
  cases h : s.engine.busy <;> simp [engineTurn, h]

/-- A turn inside WAITIDLE is a STATUS read, or the completion step. -/
theorem waitIdleTurn_cases (n : Nat) (s : State) :
    (s.engine.busy = false ∧ waitIdleTurn n s = recordRead s (statusWord s.engine)) ∨
    (s.engine.busy = true ∧ n = 0 ∧ waitIdleTurn n s = pushInput (complete s) (.waitIdle 0)) ∨
    (s.engine.busy = true ∧
      ∃ k, n = k + 1 ∧ waitIdleTurn n s = pushInput (recordRead s (statusWord s.engine)) (.waitIdle k)) := by
  cases n with
  | zero => cases h : s.engine.busy <;> simp [waitIdleTurn, pollStatus_eq, h]
  | succ k => cases h : s.engine.busy <;> simp [waitIdleTurn, pollStatus_eq, h]

/-- Every way a step can answer a next state. -/
theorem step_cases (s t : State) (h : step s = .next t) :
    (s.inputs = [] ∧ t = engineTurn s) ∨
    ∃ i rest, s.inputs = i :: rest ∧
      ((∃ addr v, i = .access (.read addr) ∧ readWindow s.engine (windowReg addr) = some v ∧
          t = recordRead { s with inputs := rest } v) ∨
       (∃ addr v, i = .access (.write addr v) ∧ windowReg addr ≠ .cmd ∧ t = { s with inputs := rest }) ∨
       (∃ addr v c, i = .access (.write addr v) ∧ windowReg addr = .cmd ∧ decode v = .ok c ∧
          exec c { s with inputs := rest } = .next t) ∨
       (∃ addr v e, i = .access (.write addr v) ∧ windowReg addr = .cmd ∧ decode v = .error e ∧
          discardIllegal { s with inputs := rest } = .next t) ∨
       (∃ n, i = .waitIdle n ∧ t = waitIdleTurn n { s with inputs := rest }) ∨
       (i = .engineTurn ∧ t = engineTurn { s with inputs := rest }) ∨
       ((i = .reset ∨ i = .powerLoss) ∧ t = resetEngine { s with inputs := rest })) := by
  cases hi : s.inputs with
  | nil =>
    rw [step_nil s hi] at h
    cases h
    exact .inl ⟨rfl, rfl⟩
  | cons i rest =>
    rw [step_cons s i rest hi] at h
    refine .inr ⟨i, rest, rfl, ?_⟩
    cases i with
    | access a =>
      cases a with
      | read addr =>
        obtain ⟨v, hv, rfl⟩ := (hostRead_next _ _ _).1 h
        exact .inl ⟨addr, v, rfl, hv, rfl⟩
      | write addr v =>
        by_cases hc : windowReg addr = .cmd
        · replace h : hostWrite addr v _ = .next t := h
          rw [hostWrite_cmd _ _ _ hc] at h
          cases hd : decode v with
          | ok c => exact .inr (.inr (.inl ⟨addr, v, c, rfl, hc, hd, by rwa [writeCommand_ok _ _ _ hd] at h⟩))
          | error e =>
            exact .inr (.inr (.inr (.inl ⟨addr, v, e, rfl, hc, hd, by rwa [writeCommand_error _ _ _ hd] at h⟩)))
        · replace h : hostWrite addr v _ = .next t := h
          rw [hostWrite_ignored _ _ _ hc] at h
          cases h
          exact .inr (.inl ⟨addr, v, rfl, hc, rfl⟩)
    | waitIdle n => cases h; exact .inr (.inr (.inr (.inr (.inl ⟨n, rfl, rfl⟩))))
    | engineTurn => cases h; exact .inr (.inr (.inr (.inr (.inr (.inl ⟨rfl, rfl⟩)))))
    | reset => cases h; exact .inr (.inr (.inr (.inr (.inr (.inr ⟨.inl rfl, rfl⟩)))))
    | powerLoss => cases h; exact .inr (.inr (.inr (.inr (.inr (.inr ⟨.inr rfl, rfl⟩)))))
    | otherHost a => cases h
    | accessDuringReset a => cases h

/-- The next turn is a host write to CMD. -/
def nextIsCmdWrite (s : State) (v : Word) : Prop :=
  ∃ addr rest, s.inputs = .access (.write addr v) :: rest ∧ windowReg addr = .cmd

/-- Every change a step can make to the engine, the fault log and the message. -/
theorem step_engine_cases (s t : State) (h : step s = .next t) :
    (t.engine = s.engine ∧ t.faultLog = s.faultLog ∧ t.message = s.message) ∨
    (s.engine.busy = true ∧ t.engine = { s.engine with busy := false } ∧ t.faultLog = s.faultLog ∧ t.message = s.message) ∨
    ((∃ rest, s.inputs = .reset :: rest ∨ s.inputs = .powerLoss :: rest) ∧
      t.engine = Engine.reset ∧ t.faultLog = s.faultLog ∧ t.message = []) ∨
    (∃ v c, nextIsCmdWrite s v ∧ t.engine = s.engine.recordFault c ∧ t.faultLog = s.faultLog ++ [c] ∧
      t.message = s.message ∧ (c = .cmdWhileBusy → s.engine.busy = true)) ∨
    (∃ v, nextIsCmdWrite s v ∧ decode v = .ok .init ∧ s.engine.busy = false ∧
      t.engine = { doInit s.engine with busy := true } ∧ t.faultLog = s.faultLog ∧ t.message = []) ∨
    (∃ v b e, nextIsCmdWrite s v ∧ decode v = .ok (.update b) ∧ s.engine.busy = false ∧ s.engine.fault = false ∧
      s.engine.lc = .active ∧ doUpdate b s.engine = some e ∧
      t.engine = { e with busy := true } ∧ t.faultLog = s.faultLog ∧ t.message = s.message ++ [b]) ∨
    (∃ v e, nextIsCmdWrite s v ∧ decode v = .ok .final ∧ s.engine.busy = false ∧ s.engine.fault = false ∧
      s.engine.lc = .active ∧ doFinal s.engine = some e ∧
      t.engine = { e with busy := true } ∧ t.faultLog = s.faultLog ∧ t.message = s.message) := by
  have turn : ∀ u : State, u.engine = s.engine → u.faultLog = s.faultLog → u.message = s.message →
      ((engineTurn u).engine = s.engine ∨ (s.engine.busy = true ∧ (engineTurn u).engine = { s.engine with busy := false })) ∧
        (engineTurn u).faultLog = s.faultLog ∧ (engineTurn u).message = s.message := by
    intro u he hl hm
    rcases engineTurn_cases u with ⟨-, hu⟩ | ⟨hb, hu⟩ <;> rw [hu]
    · exact ⟨.inl he, hl, hm⟩
    · exact ⟨.inr ⟨he ▸ hb, by simp [complete, he]⟩, hl, hm⟩
  rcases step_cases s t h with ⟨-, rfl⟩ | ⟨i, rest, hi, h⟩
  · obtain ⟨h1 | ⟨hb, h1⟩, h2, h3⟩ := turn s rfl rfl rfl
    · exact .inl ⟨h1, h2, h3⟩
    · exact .inr (.inl ⟨hb, h1, h2, h3⟩)
  · rcases h with ⟨addr, v, -, -, rfl⟩ | ⟨addr, v, -, -, rfl⟩ | ⟨addr, v, c, rfl, hc, hd, he⟩ | ⟨addr, v, e, rfl, hc, hd, he⟩ |
      ⟨n, rfl, rfl⟩ | ⟨rfl, rfl⟩ | ⟨hr, rfl⟩
    · exact .inl ⟨rfl, rfl, rfl⟩
    · exact .inl ⟨rfl, rfl, rfl⟩
    · have hw : nextIsCmdWrite s v := ⟨addr, rest, hi, hc⟩
      cases c with
      | init =>
        rcases (execInit_next _ _).1 he with ⟨hb, rfl⟩ | ⟨hb, rfl⟩
        · exact .inr (.inr (.inr (.inl ⟨v, _, hw, rfl, rfl, rfl, fun _ => hb⟩)))
        · exact .inr (.inr (.inr (.inr (.inl ⟨v, hw, hd, hb, rfl, rfl, rfl⟩))))
      | update b =>
        rcases (execUpdate_next _ _ _).1 he with ⟨hb, rfl⟩ | ⟨-, -, rfl⟩ | ⟨-, -, -, rfl⟩ | ⟨-, -, -, rfl⟩ |
          ⟨hb, hf, hl, e, hu, rfl⟩
        · exact .inr (.inr (.inr (.inl ⟨v, _, hw, rfl, rfl, rfl, fun _ => hb⟩)))
        · exact .inl ⟨rfl, rfl, rfl⟩
        · exact .inr (.inr (.inr (.inl ⟨v, _, hw, rfl, rfl, rfl, nofun⟩)))
        · exact .inr (.inr (.inr (.inl ⟨v, _, hw, rfl, rfl, rfl, nofun⟩)))
        · exact .inr (.inr (.inr (.inr (.inr (.inl ⟨v, b, e, hw, hd, hb, hf, hl, hu, rfl, rfl, rfl⟩)))))
      | final =>
        rcases (execFinal_next _ _).1 he with ⟨hb, rfl⟩ | ⟨-, -, rfl⟩ | ⟨-, -, -, rfl⟩ | ⟨-, -, -, rfl⟩ |
          ⟨hb, hf, hl, e, hu, rfl⟩
        · exact .inr (.inr (.inr (.inl ⟨v, _, hw, rfl, rfl, rfl, fun _ => hb⟩)))
        · exact .inl ⟨rfl, rfl, rfl⟩
        · exact .inr (.inr (.inr (.inl ⟨v, _, hw, rfl, rfl, rfl, nofun⟩)))
        · exact .inr (.inr (.inr (.inl ⟨v, _, hw, rfl, rfl, rfl, nofun⟩)))
        · exact .inr (.inr (.inr (.inr (.inr (.inr ⟨v, e, hw, hd, hb, hf, hl, hu, rfl, rfl, rfl⟩)))))
    · have hw : nextIsCmdWrite s v := ⟨addr, rest, hi, hc⟩
      rcases (discardIllegal_next _ _).1 he with ⟨hb, rfl⟩ | ⟨-, rfl⟩
      · exact .inr (.inr (.inr (.inl ⟨v, _, hw, rfl, rfl, rfl, fun _ => hb⟩)))
      · exact .inr (.inr (.inr (.inl ⟨v, _, hw, rfl, rfl, rfl, nofun⟩)))
    · rcases waitIdleTurn_cases n { s with inputs := rest } with ⟨-, hu⟩ | ⟨hb, -, hu⟩ | ⟨-, k, -, hu⟩ <;> rw [hu]
      · exact .inl ⟨rfl, rfl, rfl⟩
      · exact .inr (.inl ⟨hb, rfl, rfl, rfl⟩)
      · exact .inl ⟨rfl, rfl, rfl⟩
    · obtain ⟨h1 | ⟨hb, h1⟩, h2, h3⟩ := turn { s with inputs := rest } rfl rfl rfl
      · exact .inl ⟨h1, h2, h3⟩
      · exact .inr (.inl ⟨hb, h1, h2, h3⟩)
    · exact .inr (.inr (.inl ⟨⟨rest, by rcases hr with rfl | rfl <;> simp [hi]⟩, rfl, rfl, rfl⟩))

end Sys2Proof.Machine
end

