-- ==== Sys2Proof/Laws/Digest.lean ====
section
/-! SUPPORT. How `absorbBlocks` (R125) grows: by one block, and not at all when bytes are appended behind the blocks it has
read. -/

namespace Sys2Proof.Machine

/-- A byte of a message is not changed by what is appended behind it. -/
theorem getD_append_left (m l : List Byte) (i : Nat) (h : i < m.length) : (m ++ l).getD i 0 = m.getD i 0 := by
  simp [List.getD_eq_getElem?_getD, List.getElem?_append, h]

@[simp] theorem absorbBlocks_zero (m : List Byte) :
    absorbBlocks m 0 = (Vector.replicate 16 0, Vector.replicate 16 0) := by
  simp [absorbBlocks]

/-- One more block is one more transform (R125). -/
theorem absorbBlocks_succ (m : List Byte) (n : Nat) :
    absorbBlocks m (n + 1) = transform (absorbBlocks m n).1 (absorbBlocks m n).2 (messageBlock m n) := by
  simp [absorbBlocks, List.range_succ]

/-- A whole block of a message is not changed by what is appended behind it. -/
theorem messageBlock_append (m l : List Byte) (q : Nat) (h : 16 * (q + 1) ≤ m.length) :
    messageBlock (m ++ l) q = messageBlock m q := by
  apply Vector.ext
  intro i hi
  simp only [messageBlock, Vector.getElem_ofFn]
  exact getD_append_left _ _ _ (by omega)

/-- The blocks already absorbed do not see what is appended. -/
theorem absorbBlocks_append (m l : List Byte) :
    ∀ n : Nat, 16 * n ≤ m.length → absorbBlocks (m ++ l) n = absorbBlocks m n := by
  intro n
  induction n with
  | zero => simp
  | succ n ih =>
    intro h
    rw [absorbBlocks_succ, absorbBlocks_succ, ih (by omega), messageBlock_append _ _ _ h]

end Sys2Proof.Machine
end

