-- ==== Sys2Proof/Laws/PerInstr.lean ====
section
/-! SUPPORT. Statements made per instruction: the family EncodesLegal says that the fields of every command are legal (R84). -/

namespace Sys2Proof.Laws

/-- The fields that stand for the instruction meet R84. -/
def EncodesLegal.Statement (i : Instr) : Prop := (CommandFields.ofWord (encode i)).Legal

theorem EncodesLegal.init : EncodesLegal.Statement .init := by
  simp [EncodesLegal.Statement, encode, Instr.fields, CommandFields.Legal]

theorem EncodesLegal.update (b : Byte) : EncodesLegal.Statement (.update b) := by
  simp [EncodesLegal.Statement, encode, Instr.fields, CommandFields.Legal]

theorem EncodesLegal.final : EncodesLegal.Statement .final := by
  simp [EncodesLegal.Statement, encode, Instr.fields, CommandFields.Legal]

end Sys2Proof.Laws
end

