-- ==== Sys2Proof/Laws/Platform.lean ====
section
/-! SUPPORT. The windows of a platform: each engine has its own (R222), and a bus address in one reaches that engine. -/

namespace Sys2Proof

/-- A later engine has a higher window. -/
theorem engineWindow_lt {j k : Nat} (h : j < k) : Config.engineWindow j < Config.engineWindow k := by
  induction k with
  | zero => omega
  | succ k ih =>
    have hs : Config.engineWindow (k + 1) = Config.engineWindow k + Config.freeWindows k + 1 := rfl
    rcases Nat.lt_succ_iff_lt_or_eq.1 h with h | rfl
    · have := ih h; omega
    · omega

/-- No two engines have one window (R222). -/
theorem engineWindow_inj {j k : Nat} : Config.engineWindow j = Config.engineWindow k ↔ j = k := by
  refine ⟨fun h => ?_, fun h => by rw [h]⟩
  rcases Nat.lt_trichotomy j k with hlt | heq | hgt
  · have := engineWindow_lt hlt; omega
  · exact heq
  · have := engineWindow_lt hgt; omega

namespace Machine

/-- An engine sees the offset that a bus address in its window has (R51). -/
@[simp] theorem windowAddress_busAddress (k : Nat) (off : BitVec 5) : windowAddress (busAddress k off) = off := by
  apply BitVec.eq_of_toNat_eq
  have := off.isLt
  simp [windowAddress, busAddress, Config.engineBase]
  omega

/-- A bus address in the window of engine k lies in the window of no other engine (R51, R222). -/
@[simp] theorem inWindow_busAddress (j k : Nat) (off : BitVec 5) : inWindow j (busAddress k off) = decide (j = k) := by
  have := off.isLt
  have h : inWindow j (busAddress k off) = decide (Config.engineWindow k = Config.engineWindow j) := by
    rw [inWindow, busAddress, Config.engineBase, Bool.eq_iff_iff]
    simp only [beq_iff_eq, decide_eq_true_eq]
    omega
  rw [h]
  simp only [engineWindow_inj, eq_comm]

/-- A bus address in the window of engine k reaches engine k. -/
@[simp] theorem reached_busAddress (n : Nat) (k : Fin n) (off : BitVec 5) :
    Platform.reached n (busAddress k.val off) = some k := by
  unfold Platform.reached
  rw [List.find?_eq_some_iff_getElem]
  refine ⟨by simp, k.val, by simp, by simp, fun j hj => ?_⟩
  simp only [inWindow_busAddress, List.getElem_finRange, Bool.not_eq_true', decide_eq_false_iff_not]
  exact fun h => absurd h (by simpa using Nat.ne_of_lt hj)

/-- A bus address in no window reaches no engine. -/
theorem reached_eq_none (n addr : Nat) :
    Platform.reached n addr = none ↔ ∀ k : Fin n, inWindow k.val addr = false := by
  simp [Platform.reached]

end Machine

end Sys2Proof
end

