-- ==== Sys2Proof/Laws/Run.lean ====
section
/-! SUPPORT. Runs of several steps: they are the runs of the host's interface, they add up, and one step comes off the front. -/

namespace Sys2Proof.Machine

@[simp] theorem runSteps_zero (s : State) : runSteps 0 s = .next s := rfl

/-- The first step of a run. -/
theorem runSteps_succ (k : Nat) (s t : State) (h : step s = .next t) : runSteps (k + 1) s = runSteps k t := by
  simp [runSteps, h]

/-- A run that goes on can be continued. -/
theorem runSteps_add (k n : Nat) : ∀ s t : State, runSteps k s = .next t → runSteps (k + n) s = runSteps n t := by
  induction k with
  | zero => intro s t h; cases h; simp
  | succ k ih =>
    intro s t h
    rw [show k + 1 + n = (k + n) + 1 by omega]
    cases hs : step s with
    | next u =>
      rw [runSteps_succ k s u hs] at h
      rw [runSteps_succ (k + n) s u hs]
      exact ih u t h
    | fault f => simp [runSteps, hs] at h
    | refused r => simp [runSteps, hs] at h

/-- `runSteps` is the run of the host's interface. -/
theorem runSteps_eq_coreRun (k : Nat) : ∀ s : State, Host.Core.run Sys2Proof.core k s = runSteps k s := by
  induction k with
  | zero => intro s; rfl
  | succ k ih =>
    intro s
    have hs : Sys2Proof.core.step s = step s := rfl
    simp only [runSteps, Host.Core.run, hs]
    cases step s with
    | next t => exact ih t
    | fault f => rfl
    | refused r => rfl

end Sys2Proof.Machine
end

