-- ==== Sys2Proof/Laws/Transform.lean ====
section
/-! SUPPORT. The recurrences of the transform, element by element: a byte of a round (R142) and of the fold (R146) in terms of
the byte written just before it. -/

namespace Sys2Proof.Machine

/-- Byte k of a round: XOR with S at the byte written before it, at the carry for k = 0 (R142). -/
theorem mixBytes_get (w : List Byte) : ∀ (t : Byte) (k : Nat) (hk : k < w.length),
    (mixBytes w t).1.getD k 0 = w[k] ^^^ sbox (if k = 0 then t else (mixBytes w t).1.getD (k - 1) 0) := by
  induction w with
  | nil => intro t k hk; simp at hk
  | cons b rest ih =>
    intro t k hk
    cases k with
    | zero => simp [mixBytes]
    | succ k =>
      have := ih (b ^^^ sbox t) k (by simpa using hk)
      simp only [mixBytes, List.getD_cons_succ, List.getElem_cons_succ, Nat.succ_ne_zero, if_false, Nat.add_sub_cancel]
      rw [this]
      cases k <;> simp

/-- The carry after a round's bytes is the last byte written (R142). -/
theorem mixBytes_carry (w : List Byte) : ∀ t : Byte, w ≠ [] → (mixBytes w t).2 = (mixBytes w t).1.getD (w.length - 1) 0 := by
  induction w with
  | nil => intro t h; exact absurd rfl h
  | cons b rest ih =>
    intro t _
    cases rest with
    | nil => simp [mixBytes]
    | cons b' rest' =>
      have := ih (b ^^^ sbox t) (by simp)
      simpa [mixBytes] using this

/-- Byte i of a fold: the old byte XORed with S at the message byte XORed with the byte written before it, with L for i = 0
(R146). -/
theorem foldBytes_get (ck : List Byte) : ∀ (m : List Byte) (l : Byte) (i : Nat) (hc : i < ck.length) (hm : i < m.length),
    (foldBytes ck m l).getD i 0 = ck[i] ^^^ sbox (m[i] ^^^ (if i = 0 then l else (foldBytes ck m l).getD (i - 1) 0)) := by
  induction ck with
  | nil => intro m l i hc; simp at hc
  | cons c cs ih =>
    intro m l i hc hm
    cases m with
    | nil => simp at hm
    | cons m0 ms =>
      cases i with
      | zero => simp [foldBytes]
      | succ i =>
        have := ih ms (c ^^^ sbox (m0 ^^^ l)) i (by simpa using hc) (by simpa using hm)
        simp only [foldBytes, List.getD_cons_succ, List.getElem_cons_succ, Nat.succ_ne_zero, if_false, Nat.add_sub_cancel]
        rw [this]
        cases i <;> simp

/-- An element of Mix is the byte of the working buffer after 18 rounds (R143). -/
theorem mix_get (x m : Block) (i : Nat) (h : i < 16) :
    (mix x m)[i] = ((List.range 18).foldl mixRound (mixStart x.toList m.toList, 0)).1.getD i 0 := by
  simp [mix, mixList, mixRounds_length, mixStart, List.getD_eq_getElem?_getD, show i < 16 + 16 + 16 by omega]

/-- An element of Fold is the byte the fold writes there (R146). -/
theorem fold_get (ck m : Block) (i : Nat) (h : i < 16) :
    (fold ck m)[i] = (foldBytes ck.toList m.toList ck[15]).getD i 0 := by
  have := foldBytes_length ck.toList m.toList ck[15] (by simp)
  simp [fold, List.getD_eq_getElem?_getD, this, h]

end Sys2Proof.Machine
end

