-- ==== Sys2Proof/Tests/Slice0.lean ====
section
/-! SUPPORT. The model's own tests: the well-formedness smoke, words written out from the encoding tables, at most two tests
per command with results from spec/95_test_vectors.md, a few of the register window, and, for every obligation with
hypotheses, a concrete state and operands that meet them. -/

-- One theorem at a time: with many kernel evaluations at once, Lean's threads exceed the memory limit of a check.
set_option Elab.async false

namespace Sys2Proof.Tests

open Sys2Proof.Machine

/-! ### Well-formedness: one ill-formed term for each check of R84 -/

theorem test_legal_refuses_rsvh : ¬ CommandFields.Legal { rsvh := 1, op := 1, rsvm := 0, data := 0 } := by decide +kernel
theorem test_legal_refuses_rsvm : ¬ CommandFields.Legal { rsvh := 0, op := 2, rsvm := 1, data := 0x61 } := by decide +kernel
theorem test_legal_refuses_op_zero : ¬ CommandFields.Legal { rsvh := 0, op := 0, rsvm := 0, data := 0 } := by decide +kernel
theorem test_legal_refuses_op_four : ¬ CommandFields.Legal { rsvh := 0, op := 4, rsvm := 0, data := 0 } := by decide +kernel
theorem test_legal_refuses_data_on_init : ¬ CommandFields.Legal { rsvh := 0, op := 1, rsvm := 0, data := 1 } := by decide +kernel
theorem test_legal_refuses_data_on_final : ¬ CommandFields.Legal { rsvh := 0, op := 3, rsvm := 0, data := 1 } := by decide +kernel
theorem test_legal_accepts_update : CommandFields.Legal { rsvh := 0, op := 2, rsvm := 0, data := 0xFF } := by decide +kernel

/-! ### Decoding: words written out bit by bit from R80 and R82, and the table of 95_test_vectors.md section 2.4 -/

theorem test_decode_init : decode 0b00000000000000000001000000000000 = .ok .init := by decide +kernel
theorem test_decode_update : decode 0b00000000000000000010000010000001 = .ok (.update 0x81) := by decide +kernel
theorem test_decode_final : decode 0b00000000000000000011000000000000 = .ok .final := by decide +kernel
theorem test_decode_op_f : decode 0x0000F0FF = .error .reservedOp := by decide +kernel
theorem test_decode_rsvm_on_init : decode 0x00001100 = .error .reservedMid := by decide +kernel
theorem test_decode_all_ones : decode 0xFFFFFFFF = .error .reservedHigh := by decide +kernel
theorem test_encode_update : encode (.update 0x61) = 0x00002061 := by decide +kernel
theorem test_decodeTableWord : decodeTableWord 32 0x00003000 = some .final := by decide +kernel

/-! ### Small states -/

/-- An idle engine without a fault: STATE and CKSUM zero as INIT leaves them, BUF sixteen times 0x61. -/
def idleEngine (lc : Lifecycle) (blen : BitVec 4) : Engine where
  state  := zeroReg
  cksum  := zeroReg
  buf    := ofBlock (Vector.replicate 16 0x61)
  blen   := blen
  lc     := lc
  busy   := false
  fault  := false
  fcause := none

/-- A machine with the given engine and turns. -/
def machine (e : Engine) (inputs : List Input) : State := { State.reset with engine := e, inputs := inputs }

/-- A host write of the word c to CMD. -/
def cmdWrite (c : Word) : Input := .access (.write 0x00 c)

/-- The same engine, busy. -/
def busyEngine (e : Engine) : Engine := { e with busy := true }

/-- The same engine, with a fault recorded. -/
def faultedEngine (e : Engine) : Engine := { e with fault := true, fcause := some .illegalCmd }

/-- An outcome is a next state with the property p. -/
def nextWith (o : Host.Outcome State Fault Refusal) (p : State → Prop) [DecidablePred p] : Bool :=
  match o with
  | .next t => decide (p t)
  | .fault _ => false
  | .refused _ => false

theorem exists_next {o : Host.Outcome State Fault Refusal} {p : State → Prop} [DecidablePred p]
    (h : nextWith o p = true) : ∃ t, o = .next t ∧ p t := by
  unfold nextWith at h
  split at h
  · exact ⟨_, rfl, of_decide_eq_true h⟩
  · cases h
  · cases h

/-! ### The commands: results from 95_test_vectors.md, sections 2.5, 2.6 and 2.8 -/

/-- INIT from reset gives STATUS 0x5. -/
theorem test_init_from_reset :
    nextWith (step (State.reset.withFetchWord 32 0x1000)) (fun t => statusWord t.engine = 0x00000005 ∧
      t.engine.state = zeroReg ∧ t.engine.cksum = zeroReg) = true := by decide +kernel

/-- INIT with a fault recorded clears it. -/
theorem test_init_clears_fault :
    nextWith (step (machine (faultedEngine (idleEngine .active 7)) [cmdWrite 0x1000]))
      (fun t => statusWord t.engine = 0x00000005 ∧ t.faultLog = []) = true := by decide +kernel

/-- UPDATE 0x61 after INIT gives STATUS 0x105 and stages the byte. -/
theorem test_update_stages :
    nextWith (step (machine (idleEngine .active 0) [cmdWrite 0x2062]))
      (fun t => statusWord t.engine = 0x00000105 ∧ t.engine.buf[0] = .byte 0x62 ∧ t.engine.buf[1] = .byte 0x61) = true := by
  decide +kernel

/-- The 16th byte of "a" x 16: STATE and CKSUM of the block, STATUS 0x5. -/
theorem test_update_block :
    nextWith (step (machine (idleEngine .active 15) [cmdWrite 0x2061])) (fun t => statusWord t.engine = 0x00000005 ∧
      t.engine.state = ofBlock #v[0x46, 0x68, 0xBF, 0x9C, 0x14, 0xCD, 0x74, 0xB4, 0xE1, 0x73, 0xF9, 0xD5, 0xFE, 0x09, 0x27, 0xE0] ∧
      t.engine.cksum = ofBlock #v[0x19, 0x76, 0x8C, 0x75, 0xC0, 0x47, 0xE0, 0x9D, 0x9F, 0x83, 0xB7, 0xE8, 0x5B, 0xF5, 0xAE, 0x4A]) = true := by
  decide +kernel

/-- FINAL of the empty message. -/
theorem test_final_empty :
    nextWith (step (machine (idleEngine .active 0) [cmdWrite 0x3000])) (fun t => statusWord t.engine = 0x00000006 ∧
      t.engine.state = ofBlock #v[0x83, 0x50, 0xE5, 0xA3, 0xE2, 0x4C, 0x15, 0x3D, 0xF2, 0x27, 0x5C, 0x9F, 0x80, 0x69, 0x27, 0x73] ∧
      t.engine.cksum = ofBlock #v[0x68, 0xB8, 0x5E, 0x10, 0xFD, 0x74, 0x89, 0x33, 0xF3, 0xB4, 0xC3, 0xCD, 0x55, 0x46, 0x50, 0x8D] ∧
      t.engine.buf = ofBlock (Vector.replicate 16 0x10)) = true := by
  decide +kernel

/-- FINAL of "a" x 15: one pad byte 0x01. -/
theorem test_final_fifteen :
    nextWith (step (machine (idleEngine .active 15) [cmdWrite 0x3000])) (fun t =>
      t.engine.state = ofBlock #v[0xA1, 0x37, 0x9A, 0x10, 0x27, 0xD0, 0xD2, 0x9A, 0xF9, 0x82, 0x00, 0x79, 0x9B, 0x8D, 0x5D, 0x8E] ∧
      t.engine.buf[14] = .byte 0x61 ∧ t.engine.buf[15] = .byte 0x01) = true := by
  decide +kernel

/-- A command while busy: STATUS 0x4d. -/
theorem test_busy :
    nextWith (step (machine (busyEngine (idleEngine .active 0)) [cmdWrite 0x2061]))
      (fun t => statusWord t.engine = 0x0000004D ∧ t.faultLog = [.cmdWhileBusy]) = true := by decide +kernel

/-- UPDATE after reset: STATUS 0x28. -/
theorem test_uninit_use :
    nextWith (step (machine Engine.reset [cmdWrite 0x2061])) (fun t => statusWord t.engine = 0x00000028) = true := by decide +kernel

/-- FINAL after FINAL: STATUS 0x3a. -/
theorem test_after_final :
    nextWith (step (machine (idleEngine .finalized 0) [cmdWrite 0x3000])) (fun t => statusWord t.engine = 0x0000003A) = true := by
  decide +kernel

/-- INIT with DATA ≠ 0 from reset: STATUS 0x18. -/
theorem test_illegal :
    nextWith (step (machine Engine.reset [cmdWrite 0x1001])) (fun t => statusWord t.engine = 0x00000018) = true := by decide +kernel

/-! ### The transform: 95_test_vectors.md, sections 2.1 to 2.3 -/

theorem test_sbox :
    sbox 0x00 = 0x29 ∧ sbox 0x01 = 0x2E ∧ sbox 0x10 = 0x62 ∧ sbox 0x29 = 0x42 ∧ sbox 0x2E = 0xE5 ∧ sbox 0x61 = 0x19 ∧
      sbox 0x80 = 0x45 ∧ sbox 0xC8 = 0x24 ∧ sbox 0xDD = 0x00 ∧ sbox 0xFF = 0x14 := by decide +kernel

/-- Mix from a state that is not zero. -/
theorem test_mix :
    mix #v[0x46, 0x68, 0xBF, 0x9C, 0x14, 0xCD, 0x74, 0xB4, 0xE1, 0x73, 0xF9, 0xD5, 0xFE, 0x09, 0x27, 0xE0] (Vector.replicate 16 0x10)
      = #v[0x82, 0x85, 0x60, 0x27, 0x0A, 0x22, 0x38, 0xA8, 0x3E, 0x5E, 0xB7, 0xD5, 0x23, 0x1E, 0x56, 0x87] := by
  decide +kernel

/-- Fold with a carry of 0x4a from CKSUM[15]. -/
theorem test_fold_carry :
    fold #v[0x19, 0x76, 0x8C, 0x75, 0xC0, 0x47, 0xE0, 0x9D, 0x9F, 0x83, 0xB7, 0xE8, 0x5B, 0xF5, 0xAE, 0x4A] (Vector.replicate 16 0x10)
      = #v[0xD5, 0xB7, 0xB6, 0xDA, 0xBB, 0x89, 0xA6, 0x19, 0xA9, 0x5C, 0xBC, 0x52, 0x22, 0x31, 0x35, 0x9E] := by
  decide +kernel

/-! ### The register window: 95_test_vectors.md, section 2.7 -/

/-- A finalized engine that holds the digest of the empty message. -/
def digestEngine : Engine :=
  { idleEngine .finalized 0 with state := ofBlock #v[0x83, 0x50, 0xE5, 0xA3, 0xE2, 0x4C, 0x15, 0x3D, 0xF2, 0x27, 0x5C, 0x9F, 0x80, 0x69, 0x27, 0x73] }

theorem test_digest_words :
    readWindow digestEngine (.digest 0) = some 0xA3E55083 ∧ readWindow digestEngine (.digest 1) = some 0x3D154CE2 ∧
      readWindow digestEngine (.digest 2) = some 0x9F5C27F2 ∧ readWindow digestEngine (.digest 3) = some 0x73276980 := by
  decide +kernel

theorem test_digest_closed_while_busy : readWindow (busyEngine digestEngine) (.digest 0) = some 0 := by decide +kernel

/-- Bits [1:0] of the address are ignored: a write to 0x03 is a command. -/
theorem test_cmd_low_bits :
    nextWith (step (machine Engine.reset [.access (.write 0x03 0x1000)])) (fun t => statusWord t.engine = 5) = true := by
  decide +kernel

/-- A write to RSVD0 is not a command. -/
theorem test_rsvd_write :
    nextWith (step (machine Engine.reset [.access (.write 0x08 0x1000)])) (fun t => t.engine = Engine.reset) = true := by
  decide +kernel

/-- R88, R89: ABSORB of two bytes, each with its own wait. -/
theorem test_absorb :
    asmAbsorb [{ byte := 0x61, polls := 0 }, { byte := 0x62, polls := 884 }] =
      [.access (.write 0x00 0x00002061), .waitIdle 0, .access (.write 0x00 0x00002062), .waitIdle 884] := by
  decide +kernel

/-! ### Witnesses: a concrete state and operands that meet the hypotheses of an obligation, one for each of its clauses -/

theorem witness_DecodeAndEncodeAgree :
    (Instr.update 0xFF).WellFormed ∧ Instr.init.WellFormed ∧ Instr.final.WellFormed ∧
      decode 0x000020FF = .ok (.update 0xFF) := by decide +kernel

theorem witness_StepRunsTheDecodedCommand :
    (machine Engine.reset [.access (.write 0x03 0x20FF)]).inputs = .access (.write 0x03 0x20FF) :: [] ∧
      windowReg 0x03 = .cmd ∧ decode 0x20FF = .ok (.update 0xFF) ∧
      decodeTableWord 32 0x1000 = some .init := by decide +kernel

theorem witness_RaisingAFaultRecordsTheFirstCause :
    State.reset.engine.fault = false ∧ (machine (faultedEngine (idleEngine .active 0)) []).engine.fault = true := by decide +kernel

/-- The hypothesis of FaultLogOnlyGrows with nothing added and with a cause added. -/
theorem witness_FaultLogOnlyGrows :
    (∃ t, step State.reset = .next t ∧ t.faultLog = []) ∧
      ∃ t, step (machine Engine.reset [cmdWrite 0]) = .next t ∧ t.faultLog = [.illegalCmd] :=
  ⟨exists_next (by decide +kernel), exists_next (by decide +kernel)⟩

theorem written_of_active (blen : BitVec 4) : (idleEngine .active blen).Written := by
  intro _
  refine ⟨fun i => ?_, fun i => ?_, fun i _ => ?_⟩ <;>
    simp only [idleEngine, zeroReg, Fin.getElem_fin, ofBlock_get] <;> exact fun h => by cases h

/-- Each of the six clauses of FirstApplicableCheckDecides, and the two ways into the sixth. -/
theorem witness_FirstApplicableCheckDecides :
    windowReg 0x00 = .cmd ∧
    (busyEngine (idleEngine .active 0)).busy = true ∧
    (Engine.reset.busy = false ∧ ∀ i : Instr, decode 0x00004000 ≠ .ok i) ∧
    ((faultedEngine (idleEngine .active 0)).busy = false ∧ decode 0x3000 = .ok .final ∧ Instr.final ≠ .init ∧
      (faultedEngine (idleEngine .active 0)).fault = true) ∧
    (Engine.reset.busy = false ∧ decode 0x2000 = .ok (.update 0) ∧ Instr.update 0 ≠ .init ∧ Engine.reset.fault = false ∧
      Engine.reset.lc = .uninit) ∧
    ((idleEngine .finalized 0).busy = false ∧ (idleEngine .finalized 0).fault = false ∧
      (idleEngine .finalized 0).lc = .finalized) ∧
    ((idleEngine .active 15).busy = false ∧ (idleEngine .active 15).fault = false ∧ (idleEngine .active 15).lc = .active ∧
      (idleEngine .active 15).Written) ∧
    (Engine.reset.busy = false ∧ decode 0x1000 = .ok .init ∧ Engine.reset.Written) := by
  refine ⟨by decide +kernel, by decide +kernel, ⟨by decide +kernel, ?_⟩, by decide +kernel, by decide +kernel, by decide +kernel, ⟨by decide +kernel, by decide +kernel, by decide +kernel, ?_⟩,
    by decide +kernel, by decide +kernel, fun h => absurd rfl h⟩
  · intro i h
    have : decode 0x00004000 = .error .reservedOp := by decide +kernel
    rw [this] at h
    cases h
  · exact written_of_active 15

theorem witness_IllegalWordIsDiscarded :
    windowReg 0x01 = .cmd ∧ (0x2100 : Word) ≠ 0x1000 ∧ (0x2100 : Word) ≠ 0x3000 ∧
      ∀ b : Byte, (0x2100 : Word) ≠ 0x00002000 ||| b.setWidth 32 := by
  refine ⟨by decide +kernel, by decide +kernel, by decide +kernel, fun b h => ?_⟩
  have := congrArg (fun c : Word => c.getLsbD 8) h
  simp at this

/-- The four ways to be discarded: busy, illegal, a fault recorded, LC not ACTIVE. -/
theorem witness_DiscardedCommandWritesNothing :
    windowReg 0x02 = .cmd ∧ (busyEngine Engine.reset).busy = true ∧ (∀ i : Instr, decode 0 ≠ .ok i) ∧
      decode 0x3000 ≠ .ok .init ∧ (faultedEngine (idleEngine .active 0)).fault = true ∧ Engine.reset.lc ≠ .active := by
  refine ⟨by decide +kernel, by decide +kernel, fun i h => ?_, by decide +kernel, by decide +kernel, by decide +kernel⟩
  have : decode 0 = .error .reservedOp := by decide +kernel
  rw [this] at h
  cases h

theorem witness_PoisonedHashNeverFinalizes :
    (Instr.final ≠ .init ∧ (faultedEngine (idleEngine .active 0)).busy = false ∧
      (faultedEngine (idleEngine .active 0)).fault = true) ∧
    ∃ t, step (machine (faultedEngine (idleEngine .finalized 0)) [cmdWrite 0x3000]) = .next t ∧ t.engine.lc = .finalized :=
  ⟨by decide +kernel, exists_next (by decide +kernel)⟩

/-- A fault is cleared by INIT, by reset and by a loss of power. -/
theorem witness_OnlyInitAndResetClearAFault :
    (∃ t, step (machine (faultedEngine (idleEngine .active 0)) [cmdWrite 0x1000]) = .next t ∧ t.engine.fault = false) ∧
    (∃ t, step (machine (faultedEngine (idleEngine .active 0)) [.reset]) = .next t ∧ t.engine.fault = false) ∧
    (∃ t, step (machine (faultedEngine (idleEngine .active 0)) [.powerLoss]) = .next t ∧ t.engine.fault = false) ∧
    State.reset.engine.busy = false :=
  ⟨exists_next (by decide +kernel), exists_next (by decide +kernel), exists_next (by decide +kernel), by decide +kernel⟩

theorem witness_OnlyADiscardedCommandSetsFault :
    State.reset.engine.fault = false ∧
      ∃ t, step (machine Engine.reset [cmdWrite 0x2061]) = .next t ∧ t.engine.fault = true :=
  ⟨by decide +kernel, exists_next (by decide +kernel)⟩

theorem witness_OnlyInitFinalAndResetWriteLifecycle :
    (∃ t, step (machine Engine.reset [cmdWrite 0x1000]) = .next t ∧ t.engine.lc ≠ .uninit) ∧
    (∃ t, step (machine (idleEngine .active 0) [cmdWrite 0x3000]) = .next t ∧ t.engine.lc ≠ .active) ∧
    (∃ t, step (machine (idleEngine .active 0) [.reset]) = .next t ∧ t.engine.lc ≠ .active) :=
  ⟨exists_next (by decide +kernel), exists_next (by decide +kernel), exists_next (by decide +kernel)⟩

theorem witness_StateAndChecksumHaveTwoWriters :
    (∃ t, step (machine Engine.reset [cmdWrite 0x1000]) = .next t ∧ t.engine.state ≠ Engine.reset.state) ∧
    (∃ t, step (machine (idleEngine .active 15) [cmdWrite 0x2061]) = .next t ∧ t.engine.cksum ≠ zeroReg) ∧
    (∃ t, step (machine (idleEngine .active 0) [cmdWrite 0x3000]) = .next t ∧ t.engine.state ≠ zeroReg) ∧
    (∃ t, step (machine (idleEngine .active 0) [.powerLoss]) = .next t ∧ t.engine.state ≠ zeroReg) :=
  ⟨exists_next (by decide +kernel), exists_next (by decide +kernel), exists_next (by decide +kernel), exists_next (by decide +kernel)⟩

theorem witness_BusyOpensAndClosesThePeriod :
    (Engine.reset.busy = false ∧ ∃ t, step (machine Engine.reset [cmdWrite 0x1000]) = .next t ∧ t.engine.busy = true) ∧
    (machine (busyEngine digestEngine) [.engineTurn]).inputs = .engineTurn :: [] ∧
    (∃ t, step (machine (busyEngine (idleEngine .active 0)) []) = .next t ∧ t.engine.busy = false) ∧
    (∃ t, step (machine (busyEngine (idleEngine .active 0)) [.reset]) = .next t ∧ t.engine.busy = false) ∧
    (busyEngine digestEngine).busy = true ∧ windowReg 0x1F = .digest 3 ∧
    (∃ t, exec .init (machine digestEngine []) = .next t ∧ t.engine.busy = true) ∧ digestEngine.busy = false ∧
    (∃ t, exec (.update 1) (machine (idleEngine .active 14) []) = .next t ∧ t.engine.busy = true) ∧
    (idleEngine .active 14).busy = false ∧ (idleEngine .active 14).fault = false ∧ (idleEngine .active 14).lc = .active :=
  ⟨⟨by decide +kernel, exists_next (by decide +kernel)⟩, rfl, exists_next (by decide +kernel), exists_next (by decide +kernel), by decide +kernel, by decide +kernel,
    exists_next (by decide +kernel), by decide +kernel, exists_next (by decide +kernel), by decide +kernel⟩

theorem witness_InitStartsANewHash :
    State.reset.engine.busy = false ∧ (machine (busyEngine digestEngine) []).engine.busy = true := by decide +kernel

/-- BLEN at both ends of the range 0..14. -/
theorem witness_UpdateStagesOneByte :
    ((idleEngine .active 0).busy = false ∧ (idleEngine .active 0).fault = false ∧ (idleEngine .active 0).lc = .active ∧
      (idleEngine .active 0).blen ≠ 15) ∧
    ((idleEngine .active 14).busy = false ∧ (idleEngine .active 14).fault = false ∧ (idleEngine .active 14).lc = .active ∧
      (idleEngine .active 14).blen ≠ 15) := by decide +kernel

/-- BLEN = 15, STATE and CKSUM zero, and the block of sixteen bytes 0x61. -/
theorem witness_UpdateTransformsAFullBlock :
    (idleEngine .active 15).busy = false ∧ (idleEngine .active 15).fault = false ∧ (idleEngine .active 15).lc = .active ∧
      (idleEngine .active 15).blen = 15 ∧ (idleEngine .active 15).state = ofBlock (Vector.replicate 16 0) ∧
      (idleEngine .active 15).cksum = ofBlock (Vector.replicate 16 0) ∧ (Vector.replicate 16 0x61 : Block)[15] = 0x61 ∧
      ∀ i : Fin 16, i.val < 15 → (idleEngine .active 15).buf[i] = .byte (Vector.replicate 16 0x61 : Block)[i] := by decide +kernel

/-- BLEN = 0 with a block that is all padding, and BLEN = 15 with one pad byte. -/
theorem witness_FinalProducesTheDigest :
    ((idleEngine .active 0).busy = false ∧ (idleEngine .active 0).fault = false ∧ (idleEngine .active 0).lc = .active ∧
      (idleEngine .active 0).state = ofBlock (Vector.replicate 16 0) ∧
      (idleEngine .active 0).cksum = ofBlock (Vector.replicate 16 0) ∧
      (∀ i : Fin 16, i.val < (idleEngine .active 0).blen.toNat →
        (idleEngine .active 0).buf[i] = .byte (Vector.replicate 16 0x10 : Block)[i]) ∧
      ∀ i : Fin 16, (idleEngine .active 0).blen.toNat ≤ i.val →
        (Vector.replicate 16 0x10 : Block)[i] = BitVec.ofNat 8 (16 - (idleEngine .active 0).blen.toNat)) ∧
    ((∀ i : Fin 16, i.val < (idleEngine .active 15).blen.toNat →
        (idleEngine .active 15).buf[i] = .byte ((Vector.replicate 16 0x61 : Block).set 15 0x01)[i]) ∧
      ∀ i : Fin 16, (idleEngine .active 15).blen.toNat ≤ i.val →
        ((Vector.replicate 16 0x61 : Block).set 15 0x01)[i] =
          BitVec.ofNat 8 (16 - (idleEngine .active 15).blen.toNat)) := by decide +kernel

theorem witness_InitFrame :
    (∃ t, exec .init State.reset = .next t ∧ State.reset.engine.busy = false) ∧
    ∃ t, exec .init (machine (busyEngine digestEngine) []) = .next t ∧ (busyEngine digestEngine).busy = true :=
  ⟨exists_next (by decide +kernel), exists_next (by decide +kernel)⟩

/-- An accepted UPDATE with BLEN = 0 and with BLEN = 15, and a discarded one. -/
theorem witness_UpdateFrame :
    (∃ t, exec (.update 0) (machine (idleEngine .active 0) []) = .next t ∧ t.engine.blen = 1) ∧
    (∃ t, exec (.update 0xFF) (machine (idleEngine .active 15) []) = .next t ∧ t.engine.blen = 0) ∧
    (∃ t, exec (.update 0) State.reset = .next t ∧ State.reset.engine.lc ≠ .active) :=
  ⟨exists_next (by decide +kernel), exists_next (by decide +kernel), exists_next (by decide +kernel)⟩

theorem witness_FinalFrame :
    (∃ t, exec .final (machine (idleEngine .active 15) []) = .next t ∧ t.engine.lc = .finalized) ∧
    ∃ t, exec .final (machine (idleEngine .finalized 0) []) = .next t ∧ t.engine.fault = true :=
  ⟨exists_next (by decide +kernel), exists_next (by decide +kernel)⟩

/-- The longest and the shortest padding. -/
theorem witness_PaddingIsThePadLength :
    (∃ t, exec .final (machine (idleEngine .active 0) []) = .next t ∧ t.engine.buf[0] = .byte 16) ∧
    (∃ t, exec .final (machine (idleEngine .active 15) []) = .next t ∧ t.engine.buf[15] = .byte 1) ∧
    (idleEngine .active 0).busy = false ∧ (idleEngine .active 0).fault = false ∧ (idleEngine .active 0).lc = .active :=
  ⟨exists_next (by decide +kernel), exists_next (by decide +kernel), by decide +kernel⟩

theorem witness_InitTwiceIsInitOnce :
    (machine digestEngine []).engine.busy = false ∧ ∃ t, exec .init (machine digestEngine []) = .next t ∧ t.engine.lc = .active :=
  ⟨by decide +kernel, exists_next (by decide +kernel)⟩

theorem witness_AfterFinalTheDigestStays :
    Instr.update 0x62 ≠ .init ∧ digestEngine.busy = false ∧ digestEngine.fault = false ∧ digestEngine.lc = .finalized := by decide +kernel

/-- Engines in which a register holds ⊥ where a command or a view reads it; no run from reset reaches them (R34). -/
def stateLost : Engine := { idleEngine .active 15 with state := DataReg.allBot }
def cksumLost : Engine := { idleEngine .active 0 with cksum := DataReg.allBot }
def bufLost : Engine := { idleEngine .active 15 with buf := DataReg.allBot }
def digestLost : Engine := { idleEngine .finalized 0 with state := DataReg.allBot }

/-- ⊥ in STATE, in CKSUM and in a staged byte of an engine with LC = ACTIVE, at both ends of the range, and in an open view. -/
theorem witness_ReadingBottomFaults :
    (stateLost.busy = false ∧ stateLost.fault = false ∧ stateLost.lc = .active ∧ stateLost.state[(15 : Fin 16)] = .bot ∧
      stateLost.blen = 15) ∧
    (cksumLost.busy = false ∧ cksumLost.fault = false ∧ cksumLost.lc = .active ∧ cksumLost.cksum[(0 : Fin 16)] = .bot) ∧
    (bufLost.busy = false ∧ bufLost.fault = false ∧ bufLost.lc = .active ∧ (14 : Fin 16).val < bufLost.blen.toNat ∧
      bufLost.buf[(14 : Fin 16)] = .bot) ∧
    (windowReg 0x1C = .digest 3 ∧ digestLost.lc = .finalized ∧ digestLost.busy = false ∧
      (15 : Fin 16).val / 4 = (3 : Fin 4).val ∧ digestLost.state[(15 : Fin 16)] = .bot) := by decide +kernel

/-- A sequencer in LOAD, with the empty message's pad block. -/
def loadedSequencer : Sequencer where
  micro := .load
  state := Vector.replicate 16 0
  cksum := Vector.replicate 16 0
  block := Vector.replicate 16 0x10
  snap  := Vector.replicate 16 0
  w     := Vector.replicate 48 0
  t     := 0
  i     := 0
  l     := 0

theorem witness_SequencerComputesTheTransform : loadedSequencer.micro = .load ∧ 0 < microStepsPerTransform := by decide +kernel

theorem witness_WindowMapIgnoresLowAddressBits :
    (0x07 : BitVec 5).extractLsb' 2 3 = (0x04 : BitVec 5).extractLsb' 2 3 ∧
      (0x1F : BitVec 5).extractLsb' 2 3 = (0x1C : BitVec 5).extractLsb' 2 3 := by decide +kernel

theorem witness_StatusWordLayout : windowReg 0x04 = .status ∧ windowReg 0x07 = .status := by decide +kernel

/-- An open view at both ends of DIGEST, and a view closed by LC and by BUSY. -/
theorem witness_DigestViewIsGated :
    (windowReg 0x10 = .digest 0 ∧ windowReg 0x1F = .digest 3 ∧ digestEngine.lc = .finalized ∧ digestEngine.busy = false ∧
      digestEngine.state = ofBlock #v[0x83, 0x50, 0xE5, 0xA3, 0xE2, 0x4C, 0x15, 0x3D, 0xF2, 0x27, 0x5C, 0x9F, 0x80, 0x69, 0x27, 0x73] ∧
      (0 : Fin 16).val / 4 = (0 : Fin 4).val ∧ (15 : Fin 16).val / 4 = (3 : Fin 4).val) ∧
    Engine.reset.lc ≠ .finalized ∧ (busyEngine digestEngine).busy = true := by decide +kernel

theorem witness_OtherWordsReadZeroAndIgnoreWrites :
    windowReg 0x08 = .rsvd0 ∧ windowReg 0x0F = .rsvd1 ∧ windowReg 0x00 = .cmd ∧ windowReg 0x04 ≠ .cmd ∧
      windowReg 0x1F ≠ .cmd := by decide +kernel

/-- A step that changes nothing of the engine, and one that ends the busy period. -/
theorem witness_OnlyCommandWritesChangeTheEngine :
    (∃ t, step (machine (busyEngine digestEngine) [.access (.write 0x04 0)]) = .next t ∧ t.engine.busy = true) ∧
    (∃ t, step (machine (busyEngine digestEngine) []) = .next t ∧ t.engine.busy = false) ∧
    windowReg 0x04 ≠ .cmd :=
  ⟨exists_next (by decide +kernel), exists_next (by decide +kernel), by decide +kernel⟩

theorem witness_ReadsHaveNoSideEffect :
    ∃ t, hostRead 0x10 (machine digestEngine []) = .next t ∧ t.reads = [0xA3E55083] :=
  exists_next (by decide +kernel)

/-- Two engines with one view: the DIGEST view is closed and their STATE differs; and the view is open. -/
theorem witness_HostSeesOnlyTheView :
    (idleEngine .active 3).SameView { idleEngine .active 3 with state := DataReg.allBot } ∧
      digestEngine.SameView { digestEngine with cksum := DataReg.allBot } := by
  refine ⟨⟨rfl, rfl, rfl, rfl, rfl, ?_⟩, ⟨rfl, rfl, rfl, rfl, rfl, fun _ => rfl⟩⟩
  intro h
  exact absurd h (by decide +kernel)

theorem witness_ResetLeavesTheSpecValues :
    (∃ t, step (machine (busyEngine digestEngine) [.reset]) = .next t ∧ t.engine = Engine.reset) ∧
      ∃ t, step (machine digestEngine [.powerLoss, .engineTurn]) = .next t ∧ t.inputs = [.engineTurn] :=
  ⟨exists_next (by decide +kernel), exists_next (by decide +kernel)⟩

/-- The engine's turn, an empty list, each with BUSY = 1 and BUSY = 0, and a reset. -/
theorem witness_CompletionStepOnlyClearsBusy :
    (machine (busyEngine digestEngine) [.engineTurn]).inputs = .engineTurn :: [] ∧
    (machine (busyEngine digestEngine) [.engineTurn]).engine.busy = true ∧ (machine digestEngine []).inputs = [] ∧
    (machine digestEngine []).engine.busy = false ∧ (machine digestEngine [.reset]).inputs = .reset :: [] := by decide +kernel

theorem witness_EveryBusyPeriodEnds :
    (machine (busyEngine digestEngine) [cmdWrite 0, .waitIdle 3]).engine.busy = true ∧
      ∀ a : HostAccess, .otherHost a ∉ [cmdWrite 0, .waitIdle 3] ∧ .accessDuringReset a ∉ [cmdWrite 0, .waitIdle 3] := by
  refine ⟨by decide +kernel, fun a => ?_⟩
  simp [cmdWrite]

/-- A WAITIDLE with no poll before the completion step, one with two, and one on an idle engine. -/
theorem witness_WaitIdleReturnsIdle :
    (machine (busyEngine digestEngine) [.waitIdle 0]).inputs = .waitIdle 0 :: [] ∧
    (machine (busyEngine digestEngine) [.waitIdle 2]).inputs = .waitIdle 2 :: [] ∧ (busyEngine digestEngine).busy = true ∧
    (machine digestEngine [.waitIdle 2]).inputs = .waitIdle 2 :: [] ∧ digestEngine.busy = false := by
  decide +kernel

theorem witness_WaitingHostNeverHitsABusyEngine :
    spaced (machine Engine.reset [cmdWrite 0x1000, .waitIdle 1, cmdWrite 0x3000]).engine.busy
        (machine Engine.reset [cmdWrite 0x1000, .waitIdle 1, cmdWrite 0x3000]).inputs = true ∧
      ∃ t, step (machine Engine.reset [cmdWrite 0x1000, .waitIdle 1, cmdWrite 0x3000]) = .next t ∧ t.engine.busy = true :=
  ⟨by decide +kernel, exists_next (by decide +kernel)⟩

theorem witness_RunsOutsideTheSpecAreRefused :
    (machine digestEngine [.otherHost (.read 0x10)]).inputs = .otherHost (.read 0x10) :: [] ∧
      (machine digestEngine [.accessDuringReset (.write 0 0x1000)]).inputs = .accessDuringReset (.write 0 0x1000) :: [] := by
  decide +kernel

/-- Two engines, the first of which takes a command. -/
def twoEngines : Platform 2 where
  machines := #v[machine Engine.reset [cmdWrite 0x1000], State.reset]

theorem witness_EnginesOfAPlatformAreIsolated : ∃ q, twoEngines.stepAt 0 = .next q := ⟨_, rfl⟩

/-- A platform without an engine has no window, and the first engine of two performs a bus access. -/
theorem witness_BusAddressReachesItsWindow :
    (∀ k : Fin 0, inWindow k.val 0 = false) ∧ (∃ q, twoEngines.accessAt 0 (.write 0x1F 0) = .next q) ∧ (1 : Fin 2) ≠ 0 :=
  ⟨nofun, ⟨_, rfl⟩, by decide⟩

/-- The register invariants hold of a reset, an active and a finalized machine, and each takes a step. -/
theorem witness_StepKeepsTheRegisterInvariants :
    (machine (idleEngine .active 15) [cmdWrite 0x3000]).Inv ∧ (machine digestEngine []).Inv ∧
      (∃ t, step (machine (idleEngine .active 15) [cmdWrite 0x3000]) = .next t ∧ t.engine.lc = .finalized) ∧
      ∃ t, step (machine digestEngine []) = .next t ∧ t.engine.lc = .finalized := by
  refine ⟨⟨⟨by decide +kernel, by decide +kernel⟩, written_of_active 15⟩, ⟨⟨by decide +kernel, by decide +kernel⟩, ?_⟩, exists_next (by decide +kernel),
    exists_next (by decide +kernel)⟩
  intro _
  refine ⟨?_, ?_, ?_⟩ <;> decide +kernel

/-- An engine right after INIT holds the empty message. -/
theorem witness_StepKeepsTheDigestInvariant :
    (machine (idleEngine .active 0) [cmdWrite 0x3000]).DigestInv ∧
      ∃ t, step (machine (idleEngine .active 0) [cmdWrite 0x3000]) = .next t ∧ t.engine.lc = .finalized := by
  refine ⟨⟨fun _ => ⟨rfl, rfl, rfl, fun i h => absurd h (Nat.not_lt_zero _)⟩, fun h => ?_⟩, exists_next (by decide +kernel)⟩
  exact absurd h (by decide +kernel)

/-- A finalized engine whose STATE is MD2 of the empty message, read at both ends of the digest. -/
theorem witness_OpenViewReturnsMd2 :
    (machine { digestEngine with state := ofBlock (md2 []) } []).DigestInv ∧
      digestEngine.lc = .finalized ∧ digestEngine.busy = false ∧
      windowReg 0x10 = .digest ⟨(0 : Fin 16).val / 4, by decide +kernel⟩ ∧ windowReg 0x1C = .digest ⟨(15 : Fin 16).val / 4, by decide +kernel⟩ := by
  refine ⟨⟨fun h => ?_, fun _ => ⟨rfl, rfl⟩⟩, by decide +kernel, by decide +kernel, by decide +kernel, by decide +kernel⟩
  exact absurd h (by decide +kernel)

theorem witness_NoStepReadsBottom : State.reset.Inv :=
  ⟨⟨by decide +kernel, by decide +kernel⟩, fun h => absurd rfl h⟩

/-- Two machines that differ in a byte of BUF above BLEN. -/
theorem witness_StaleElementsInfluenceNothing :
    (machine (idleEngine .active 3) [cmdWrite 0x3000]).SameLive
      (machine { idleEngine .active 3 with buf := (idleEngine .active 3).buf.set 3 .bot } [cmdWrite 0x3000]) ∧
    (∃ t, step (machine (idleEngine .active 3) [cmdWrite 0x3000]) = .next t ∧ t.engine.lc = .finalized) := by
  refine ⟨⟨⟨rfl, rfl, rfl, rfl, rfl, fun _ => rfl, fun _ => ⟨rfl, ?_⟩⟩, rfl, rfl, rfl, rfl⟩, exists_next (by decide +kernel)⟩
  decide +kernel

/-- A HASH whose WAITIDLEs poll different numbers of times. -/
theorem witness_HashReadsMd2OfItsBytes :
    State.reset.engine.busy = false ∧
      (machine Engine.reset (asmHash 0 [{ byte := 0x61, polls := 3 }] 7)).inputs =
        asmHash 0 [{ byte := 0x61, polls := 3 }] 7 ++ [] := by
  decide +kernel

end Sys2Proof.Tests
end

section
/-! PROOFS. Rule R12: a command or an open DIGEST word that reads an element ⊥ stops with `Fault.bottomRead`. -/

namespace Sys2Proof.Machine

@[simp] theorem value_bot : Elem.bot.value = none := rfl

/-- FINAL has no effect where STATE, CKSUM or a staged byte holds ⊥; padding keeps the staged bytes (R120). -/
theorem doFinal_eq_none (e : Engine) (i : Fin 16)
    (h : e.state[i] = .bot ∨ e.cksum[i] = .bot ∨ (i.val < e.blen.toNat ∧ e.buf[i] = .bot)) : doFinal e = none := by
  rw [Option.eq_none_iff_forall_ne_some]
  intro e' he
  obtain ⟨x, ck, m, hx, hck, hm, -⟩ := (doFinal_eq_some e e').1 he
  rcases h with h | h | ⟨hi, h⟩
  · simp [hx] at h
  · simp [hck] at h
  · have hpad : (padBuffer e.buf e.blen)[i.val] = .bot := by rw [padBuffer_get, if_pos hi]; exact h
    simp [hm] at hpad

/-- UPDATE has no effect on the 16th byte of a block where STATE, CKSUM or a staged byte holds ⊥; staging that byte keeps
the bytes below it (R115). -/
theorem doUpdate_eq_none (b : Byte) (e : Engine) (i : Fin 16) (hlast : e.blen = 15)
    (h : e.state[i] = .bot ∨ e.cksum[i] = .bot ∨ (i.val < e.blen.toNat ∧ e.buf[i] = .bot)) : doUpdate b e = none := by
  rw [Option.eq_none_iff_forall_ne_some]
  intro e' he
  rcases (doUpdate_eq_some b e e').1 he with ⟨hne, -⟩ | ⟨-, x, ck, m, hx, hck, hm, -⟩
  · exact hne hlast
  rcases h with h | h | ⟨hi, h⟩
  · simp [hx] at h
  · simp [hck] at h
  · have hstage : (stageByte e.buf e.blen b)[i.val] = .bot := by rw [stageByte_get, if_neg hi.ne]; exact h
    simp [hm] at hstage

/-- A command that passes every check of R100 but has no effect faults (R12). -/
theorem whenIdleActive_fault (s : State) (r : State → Option Engine) (m : State → List Byte)
    (hb : s.engine.busy = false) (hf : s.engine.fault = false) (hl : s.engine.lc = .active) (hr : r s = none) :
    (whenIdle s fun s => whenActive s fun s => accept s (r s) (m s)) = .fault .bottomRead := by
  rw [whenIdle_idle _ _ hb, whenActive_active _ _ hf hl, hr]
  rfl

/-- A DIGEST word is composed only of elements that hold bytes (R56). -/
theorem ne_bot_of_digestLanes (state : DataReg) (n : Fin 4) (w : Word) (hw : digestLanes state n = some w) (i : Fin 16)
    (hi : i.val / 4 = n.val) : state[i] ≠ .bot := by
  simp only [digestLanes, Option.bind_eq_some_iff, Option.map_eq_some_iff] at hw
  obtain ⟨b0, h0, b1, h1, b2, h2, b3, h3, -⟩ := hw
  obtain ⟨i, hlt⟩ := i
  intro (hbot : state[i] = .bot)
  have hlane : i = 4 * n.val ∨ i = 4 * n.val + 1 ∨ i = 4 * n.val + 2 ∨ i = 4 * n.val + 3 := by
    simp only at hi
    omega
  rcases hlane with rfl | rfl | rfl | rfl
  · simp [hbot] at h0
  · simp [hbot] at h1
  · simp [hbot] at h2
  · simp [hbot] at h3

/-- A read of an open DIGEST word with an element ⊥ faults (R12). -/
theorem hostRead_open_bottom (s : State) (addr : BitVec 5) (n : Fin 4) (ha : windowReg addr = .digest n)
    (hl : s.engine.lc = .finalized) (hb : s.engine.busy = false) (i : Fin 16) (hi : i.val / 4 = n.val)
    (hbot : s.engine.state[i] = .bot) : hostRead addr s = .fault .bottomRead := by
  have hnone : digestLanes s.engine.state n = none :=
    Option.eq_none_iff_forall_ne_some.2 fun w hw => ne_bot_of_digestLanes _ n w hw i hi hbot
  simp [hostRead, ha, readWindow, digestOpen, hl, hb, hnone]

/-- Settles O27: the effect of the command, or the word of the view, is none where it reads ⊥, and the model then stops. -/
theorem readingBottomFaults : Obligations.ReadingBottomFaults := by
  unfold Obligations.ReadingBottomFaults
  constructor
  · rintro s hb hf hl ⟨i, hbot⟩
    constructor
    · exact whenIdleActive_fault s (fun s => doFinal s.engine) (fun s => s.message) hb hf hl
        (doFinal_eq_none s.engine i hbot)
    · intro hlast b
      exact whenIdleActive_fault s (fun s => doUpdate b s.engine) (fun s => s.message ++ [b]) hb hf hl
        (doUpdate_eq_none b s.engine i hlast hbot)
  · rintro s addr n ha hl hb ⟨i, hi, hbot⟩
    exact hostRead_open_bottom s addr n ha hl hb i hi hbot

end Sys2Proof.Machine
end

section
/-! PROOFS. Rules R26 and R37: what opens and closes the busy period, what the host meets inside it, and the engine after
reset. -/

namespace Sys2Proof.Machine

/-- A DIGEST word reads 0 while the view is closed (R56). -/
theorem readWindow_digest_closed (e : Engine) (n : Fin 4) (h : digestOpen e = false) :
    readWindow e (.digest n) = some 0 := by
  simp [readWindow, h]

/-- BUSY = 1 closes the DIGEST view, whatever LC is (R56). -/
theorem digestOpen_busy (e : Engine) (h : e.busy = true) : digestOpen e = false := by
  simp [digestOpen, h]

/-- A DIGEST read inside the busy period returns 0 and does not read STATE. -/
theorem hostRead_digest_busy (addr : BitVec 5) (n : Fin 4) (s : State) (hb : s.engine.busy = true)
    (ha : windowReg addr = .digest n) : hostRead addr s = .next (recordRead s 0) := by
  rw [hostRead_next, ha]
  exact ⟨0, readWindow_digest_closed _ n (digestOpen_busy _ hb), rfl⟩

/-- The busy check comes before any look at the word (R100), so legal and illegal words end alike. -/
theorem writeCommand_busy (c : Word) (s : State) (hb : s.engine.busy = true) :
    writeCommand c s = .next (raiseFault .cmdWhileBusy s) := by
  cases hd : decode c with
  | ok i => rw [writeCommand_ok c i s hd, exec_busy i s hb]
  | error e => rw [writeCommand_error c e s hd, discardIllegal, whenIdle_busy s _ hb]

/-- A command that passes every check of R100 and goes on has been accepted. -/
theorem whenIdleActive_accepted (s t : State) (r : State → Option Engine) (m : State → List Byte)
    (hb : s.engine.busy = false) (hf : s.engine.fault = false) (hl : s.engine.lc = .active)
    (h : (whenIdle s fun s => whenActive s fun s => accept s (r s) (m s)) = .next t) : ∃ e msg, t = accepted s e msg := by
  rw [whenIdle_idle _ _ hb, whenActive_active _ _ hf hl, accept_eq_next] at h
  obtain ⟨e, -, rfl⟩ := h
  exact ⟨e, m s, rfl⟩

/-- An idle engine accepts every INIT (R111). -/
theorem execInit_accepted (s t : State) (hb : s.engine.busy = false) (h : execInit s = .next t) :
    ∃ e msg, t = accepted s e msg := by
  rw [execInit, whenIdle_idle _ _ hb, accept_eq_next] at h
  obtain ⟨e, -, rfl⟩ := h
  exact ⟨e, [], rfl⟩

/-- INIT needs only BUSY = 0 to be accepted (R111); UPDATE and FINAL need FAULT = 0 and LC = ACTIVE as well (R100). -/
theorem exec_accepted (i : Instr) (s t : State) (h : exec i s = .next t) (hb : s.engine.busy = false)
    (hi : i = .init ∨ (s.engine.fault = false ∧ s.engine.lc = .active)) : ∃ e msg, t = accepted s e msg := by
  cases i with
  | init => exact execInit_accepted s t hb h
  | update b =>
    obtain ⟨hf, hl⟩ := hi.resolve_left nofun
    exact whenIdleActive_accepted s t (fun s => doUpdate b s.engine) (fun s => s.message ++ [b]) hb hf hl h
  | final =>
    obtain ⟨hf, hl⟩ := hi.resolve_left nofun
    exact whenIdleActive_accepted s t (fun s => doFinal s.engine) (fun s => s.message) hb hf hl h

/-- A turn of the engine ends the busy period if one is open (R102). -/
theorem engineTurn_idle (s : State) : (engineTurn s).engine.busy = false := by
  rcases engineTurn_cases s with ⟨hb, ht⟩ | ⟨-, ht⟩
  · rw [ht, hb]
  · rw [ht, complete_busy]

/-- WAITIDLE opens no busy period (R89). -/
theorem waitIdleTurn_idle (n : Nat) (s : State) (hb : s.engine.busy = false) : (waitIdleTurn n s).engine.busy = false := by
  rcases waitIdleTurn_cases n s with ⟨-, ht⟩ | ⟨hbusy, -⟩ | ⟨hbusy, -⟩
  · rw [ht, recordRead_engine, hb]
  · simp [hb] at hbusy
  · simp [hb] at hbusy

/-- Discarding an illegal word leaves BUSY (R85). -/
theorem discardIllegal_keeps_busy (s t : State) (h : discardIllegal s = .next t) : t.engine.busy = s.engine.busy := by
  rcases (discardIllegal_next s t).1 h with ⟨-, rfl⟩ | ⟨-, rfl⟩
  · simp
  · simp

/-- Only a command word written to CMD opens a busy period (R26). -/
theorem step_opens_period (s t : State) (h : step s = .next t) (hs : s.engine.busy = false) (ht : t.engine.busy = true) :
    ∃ (addr : BitVec 5) (i : Instr) (rest : List Input), windowReg addr = .cmd ∧
      s.inputs = .access (.write addr (encode i)) :: rest ∧ exec i { s with inputs := rest } = .next t := by
  have not_idle : t.engine.busy ≠ false := by simp [ht]
  rcases step_cases s t h with ⟨-, rfl⟩ | ⟨_, rest, hin, ⟨_, _, -, -, rfl⟩ | ⟨_, _, -, -, rfl⟩ |
    ⟨addr, v, c, rfl, ha, hd, he⟩ | ⟨_, _, _, -, -, -, he⟩ | ⟨n, -, rfl⟩ | ⟨-, rfl⟩ | ⟨-, rfl⟩⟩
  · exact absurd (engineTurn_idle s) not_idle
  · exact absurd hs not_idle
  · exact absurd hs not_idle
  · rw [(decode_eq_ok_iff_encode v c).1 hd] at hin
    exact ⟨addr, c, rest, ha, hin, he⟩
  · exact absurd ((discardIllegal_keeps_busy _ t he).trans hs) not_idle
  · exact absurd (waitIdleTurn_idle n { s with inputs := rest } hs) not_idle
  · exact absurd (engineTurn_idle _) not_idle
  · exact absurd rfl not_idle

/-- Only the completion step and reset close a busy period (R26): a discarded command leaves BUSY, an accepted one sets it. -/
theorem step_closes_period (s t : State) (h : step s = .next t) (hs : s.engine.busy = true) (ht : t.engine.busy = false) :
    t.engine = { s.engine with busy := false } ∨
      ∃ rest : List Input, s.inputs = .reset :: rest ∨ s.inputs = .powerLoss :: rest := by
  rcases step_engine_cases s t h with ⟨he, -⟩ | ⟨-, he, -⟩ | ⟨hr, -⟩ | ⟨_, _, -, he, -⟩ | ⟨_, -, -, -, he, -⟩ |
    ⟨_, _, _, -, -, -, -, -, -, he, -⟩ | ⟨_, _, -, -, -, -, -, -, he, -⟩
  · simp [he, hs] at ht
  · exact .inl he
  · exact .inr hr
  · simp [he, hs] at ht
  · simp [he] at ht
  · simp [he] at ht
  · simp [he] at ht

/-- Inside the busy period the engine's turn is the completion step (R102). -/
theorem step_engineTurn_busy (s : State) (rest : List Input) (hin : s.inputs = .engineTurn :: rest)
    (hb : s.engine.busy = true) : step s = .next (complete { s with inputs := rest }) := by
  simp [step_cons s _ rest hin, takeInput, engineTurn, hb]

/-- Settles O16: each clause is the rule above for what opens the period, what closes it, and what the host meets in it. -/
theorem busyOpensAndClosesThePeriod : Obligations.BusyOpensAndClosesThePeriod := by
  unfold Obligations.BusyOpensAndClosesThePeriod
  refine ⟨?_, step_opens_period, step_engineTurn_busy, step_closes_period, writeCommand_busy, hostRead_digest_busy⟩
  intro i s t h hb hi
  obtain ⟨e, msg, rfl⟩ := exec_accepted i s t h hb hi
  exact accepted_busy s e msg

/-- Reset and loss of power always take place, and are one event (R224, R240). -/
theorem step_reset (s : State) (rest : List Input) (h : s.inputs = .reset :: rest ∨ s.inputs = .powerLoss :: rest) :
    step s = .next (resetEngine { s with inputs := rest }) := by
  rcases h with h | h
  · exact step_cons s .reset rest h
  · exact step_cons s .powerLoss rest h

/-- STATUS reads 0 after reset (R37). -/
theorem readWindow_status_reset : readWindow Engine.reset .status = some 0 := by decide

/-- Settles O40: both ways to the state after reset lead to `Engine.reset`, whose fields and words are then read off. -/
theorem resetLeavesTheSpecValues : Obligations.ResetLeavesTheSpecValues := by
  unfold Obligations.ResetLeavesTheSpecValues
  refine ⟨fun e he => ?_, fun s rest h => ⟨_, step_reset s rest h⟩⟩
  have after_reset : e = Engine.reset := by
    rcases he with rfl | ⟨s, t, rest, hr, hstep, rfl⟩
    · rfl
    · rw [step_reset s rest hr] at hstep
      cases hstep
      rfl
  subst after_reset
  exact ⟨rfl, rfl, rfl, rfl, rfl, fun i => ⟨reset_state i i.isLt, reset_cksum i i.isLt, reset_buf i i.isLt⟩,
    readWindow_status_reset, fun n => readWindow_digest_closed _ n rfl⟩

end Sys2Proof.Machine
end

section
/-! PROOFS. The register window (20_memory.md): its map, the STATUS word, the gated DIGEST view, and the words that read 0 and
ignore writes. -/

namespace Sys2Proof.Machine

/-- A read of a word that the window shows goes on and returns that word. -/
theorem hostRead_of_readWindow (addr : BitVec 5) (s : State) (v : Word)
    (h : readWindow s.engine (windowReg addr) = some v) : hostRead addr s = .next (recordRead s v) :=
  (hostRead_next addr s _).2 ⟨v, h, rfl⟩

/-! ### The DIGEST view -/

/-- The four lanes of a word, as byte `j` of its four bytes: bits [8*j+7 : 8*j] (R56, R62). -/
theorem lanesWord_extractLsb' (b0 b1 b2 b3 : Byte) (j : Fin 4) :
    (lanesWord b0 b1 b2 b3).extractLsb' (8 * j.val) 8 = #v[b0, b1, b2, b3][j] := by
  apply BitVec.eq_of_getLsbD_eq
  intro k hk
  simp only [lanesWord, BitVec.getLsbD_extractLsb', BitVec.getLsbD_or, BitVec.getLsbD_shiftLeft, BitVec.getLsbD_setWidth]
  fin_cases j <;> interval_cases k <;> simp

/-- Element `i` of STATE stands in lane `i mod 4` of the word that shows it (R56). -/
theorem lanesWord_element (x : Block) (n : Fin 4) (i : Fin 16) (hi : i.val / 4 = n.val) :
    (lanesWord x[4 * n.val] x[4 * n.val + 1] x[4 * n.val + 2] x[4 * n.val + 3]).extractLsb' (8 * (i.val % 4)) 8 = x[i] := by
  obtain ⟨j, hj⟩ : ∃ j : Fin 4, i.val = 4 * n.val + j.val := ⟨⟨i.val % 4, by omega⟩, by simp only; omega⟩
  have hlane : i.val % 4 = j.val := by omega
  rw [hlane, lanesWord_extractLsb']
  simp only [Fin.getElem_fin, hj]
  fin_cases j <;> rfl

/-- The DIGEST view is open exactly while LC = FINALIZED and BUSY = 0 (R56). -/
theorem digestOpen_eq_true (e : Engine) : digestOpen e = true ↔ e.lc = .finalized ∧ e.busy = false := by
  simp [digestOpen]

/-- An open DIGEST word shows its four bytes of STATE (R56). -/
theorem readWindow_digest_open (e : Engine) (n : Fin 4) (x : Block) (h : digestOpen e = true) (hx : e.state = ofBlock x) :
    readWindow e (.digest n) = some (lanesWord x[4 * n.val] x[4 * n.val + 1] x[4 * n.val + 2] x[4 * n.val + 3]) := by
  rw [← digestLanes_ofBlock, ← hx]
  exact if_pos h

/-- Settles O35: the open view shows the lanes of its elements, and a view closed by LC or by BUSY reads 0; FAULT is in
neither. -/
theorem digestViewIsGated : Obligations.DigestViewIsGated := by
  unfold Obligations.DigestViewIsGated
  intro s addr n ha
  constructor
  · intro hl hb x hx
    have hopen : digestOpen s.engine = true := (digestOpen_eq_true _).2 ⟨hl, hb⟩
    have hread := readWindow_digest_open s.engine n x hopen hx
    rw [← ha] at hread
    exact ⟨_, hostRead_of_readWindow addr s _ hread, lanesWord_element x n⟩
  · intro h
    have hclosed : digestOpen s.engine = false := by
      rw [← Bool.not_eq_true, digestOpen_eq_true]
      rintro ⟨hl, hb⟩
      rcases h with hl' | hb'
      · exact hl' hl
      · simp [hb] at hb'
    apply hostRead_of_readWindow
    rw [ha, readWindow_digest_closed s.engine n hclosed]

/-! ### The map -/

/-- Only address bits [4:2] select the word (R51). -/
theorem windowReg_eq_of_bits (a b : BitVec 5) (h : a.extractLsb' 2 3 = b.extractLsb' 2 3) : windowReg a = windowReg b := by
  unfold windowReg
  rw [h]

/-- A read depends on the address only through the word it selects. -/
theorem hostRead_congr (a b : BitVec 5) (s : State) (h : windowReg a = windowReg b) : hostRead a s = hostRead b s := by
  unfold hostRead
  rw [h]

/-- A write depends on the address only through the word it selects. -/
theorem hostWrite_congr (a b : BitVec 5) (v : Word) (s : State) (h : windowReg a = windowReg b) :
    hostWrite a v s = hostWrite b v s := by
  unfold hostWrite
  rw [h]

/-- Settles O33: the map is that of the offsets, and an access reads only bits [4:2] of its address. -/
theorem windowMapIgnoresLowAddressBits : Obligations.WindowMapIgnoresLowAddressBits := by
  unfold Obligations.WindowMapIgnoresLowAddressBits
  refine ⟨windowReg_offset .cmd, windowReg_offset .status, windowReg_offset .rsvd0, windowReg_offset .rsvd1,
    windowReg_offset (.digest 0), windowReg_offset (.digest 1), windowReg_offset (.digest 2), windowReg_offset (.digest 3), ?_⟩
  intro a b h s v
  have same_word : windowReg a = windowReg b := windowReg_eq_of_bits a b h
  exact ⟨hostRead_congr a b s same_word, hostWrite_congr a b v s same_word⟩

/-! ### STATUS: each field read back from the bits that `statusWord_getLsbD` gives (R54) -/

section statusWord
variable (e : Engine)

theorem statusWord_lc : (statusWord e).extractLsb' 0 2 = e.lc.code := by
  apply BitVec.eq_of_getLsbD_eq
  intro i hi
  simp (disch := omega) only [BitVec.getLsbD_extractLsb', statusWord_getLsbD, Nat.zero_add, hi, ↓reduceIte,
    decide_true, Bool.true_and]

theorem statusWord_busy : (statusWord e).getLsbD 2 = e.busy := busyBit_statusWord e

theorem statusWord_fault : (statusWord e).getLsbD 3 = e.fault := statusWord_getLsbD e 3 (by omega)

theorem statusWord_fcause : (statusWord e).extractLsb' 4 3 = causeCode e.fcause := by
  apply BitVec.eq_of_getLsbD_eq
  intro i hi
  simp (disch := omega) only [BitVec.getLsbD_extractLsb', statusWord_getLsbD, if_pos, if_neg, Nat.add_sub_cancel_left,
    hi, decide_true, Bool.true_and]

theorem statusWord_bit7 : (statusWord e).getLsbD 7 = false := statusWord_getLsbD e 7 (by omega)

theorem statusWord_blen : (statusWord e).extractLsb' 8 4 = e.blen := by
  apply BitVec.eq_of_getLsbD_eq
  intro i hi
  simp (disch := omega) only [BitVec.getLsbD_extractLsb', statusWord_getLsbD, if_pos, if_neg, Nat.add_sub_cancel_left,
    hi, decide_true, Bool.true_and]

theorem statusWord_high : (statusWord e).extractLsb' 12 20 = 0 := by
  apply BitVec.eq_of_getLsbD_eq
  intro i hi
  simp (disch := omega) only [BitVec.getLsbD_extractLsb', statusWord_getLsbD, if_neg, Bool.and_false, BitVec.getLsbD_zero,
    BitVec.ofNat_eq_ofNat]

end statusWord

/-- Settles O34: a STATUS read returns the word, each of whose bits belongs to one field or reads 0. -/
theorem statusWordLayout : Obligations.StatusWordLayout := by
  unfold Obligations.StatusWordLayout
  refine ⟨?_, ?_, rfl, rfl, rfl, rfl, rfl⟩
  · intro s addr ha
    apply hostRead_of_readWindow
    rw [ha]
    rfl
  · intro e
    exact ⟨statusWord_lc e, statusWord_busy e, statusWord_fault e, statusWord_fcause e, statusWord_bit7 e, statusWord_blen e,
      statusWord_high e⟩

/-! ### The words without a content -/

/-- The reserved words and CMD show 0, whatever the engine holds (R55, R58). -/
theorem readWindow_zero (e : Engine) (r : WindowReg) (h : r = .rsvd0 ∨ r = .rsvd1 ∨ r = .cmd) : readWindow e r = some 0 := by
  rcases h with rfl | rfl | rfl
  · rfl
  · rfl
  · rfl

/-- Settles O36: these words show 0, and only a write to CMD is more than ignored. -/
theorem otherWordsReadZeroAndIgnoreWrites : Obligations.OtherWordsReadZeroAndIgnoreWrites := by
  unfold Obligations.OtherWordsReadZeroAndIgnoreWrites
  constructor
  · intro s addr h
    exact hostRead_of_readWindow addr s 0 (readWindow_zero s.engine (windowReg addr) h)
  · intro s addr v h
    exact hostWrite_ignored addr v s h

end Sys2Proof.Machine
end

section
/-! PROOFS. The encoding (30_encoding.md): R84, which words are legal, and R85, what the write of an illegal one does. -/

namespace Sys2Proof

/-- The legal fields are those of the commands (R82, R84). -/
theorem CommandFields.legal_iff (f : CommandFields) : f.Legal ↔ ∃ i : Instr, f = i.fields := by
  constructor
  · obtain ⟨rsvh, op, rsvm, data⟩ := f
    rintro ⟨rfl, rfl, rfl | rfl | rfl, hdata⟩
    · cases hdata (.inl rfl)
      exact ⟨.init, rfl⟩
    · exact ⟨.update data, rfl⟩
    · cases hdata (.inr rfl)
      exact ⟨.final, rfl⟩
  · rintro ⟨i, rfl⟩
    cases i with
    | init => decide
    | update b => exact ⟨rfl, rfl, .inr (.inl rfl), by simp [Instr.fields]⟩
    | final => decide

/-- Settles O3: the decoder accepts the words whose fields are a command's, and these are the legal fields. -/
theorem decoderAcceptsExactlyTheLegalWords : Obligations.DecoderAcceptsExactlyTheLegalWords := by
  unfold Obligations.DecoderAcceptsExactlyTheLegalWords
  intro c
  calc (∃ i : Instr, decode c = .ok i)
    _ ↔ ∃ i : Instr, CommandFields.ofWord c = i.fields := exists_congr (decode_eq_ok c)
    _ ↔ (CommandFields.ofWord c).Legal := (CommandFields.legal_iff _).symm

theorem encode_init : encode .init = 0x00001000 := by decide

theorem encode_final : encode .final = 0x00003000 := by decide

/-- The command word of UPDATE: its byte fills the low bits of 0x00002000 (R83). -/
theorem encode_update (b : Byte) : encode (.update b) = 0x00002000 ||| b.setWidth 32 := by
  have high : (0 : BitVec 16) ++ (2 : BitVec 4) ++ (0 : BitVec 4) = 0x000020 := by decide
  calc encode (.update b)
    _ = (0x000020 : BitVec 24) ++ b := congrArg (· ++ b) high
    _ = 0x00002000 ||| b.setWidth 32 := BitVec.append_def _ _

/-- A word that is none of the 258 of R83 decodes to no command. -/
theorem decode_error_of_not_legal (c : Word) (hinit : c ≠ 0x00001000) (hfinal : c ≠ 0x00003000)
    (hupdate : ∀ b : Byte, c ≠ 0x00002000 ||| b.setWidth 32) : ∃ e : Illegal, decode c = .error e := by
  cases hd : decode c with
  | error e => exact ⟨e, rfl⟩
  | ok i =>
    have hc : c = encode i := (decode_eq_ok_iff_encode c i).1 hd
    cases i with
    | init => exact absurd (hc.trans encode_init) hinit
    | update b => exact absurd (hc.trans (encode_update b)) (hupdate b)
    | final => exact absurd (hc.trans encode_final) hfinal

end Sys2Proof

namespace Sys2Proof.Machine

/-- Discarding an illegal word records one cause; BUSY takes priority (R85, R100). -/
theorem discardIllegal_eq (s : State) :
    discardIllegal s = .next (raiseFault (if s.engine.busy then .cmdWhileBusy else .illegalCmd) s) := by
  cases hb : s.engine.busy with
  | true => exact whenIdle_busy s _ hb
  | false => exact whenIdle_idle s _ hb

/-- A step whose turn is a write to CMD writes that command word. -/
theorem step_cmdWrite (s : State) (addr : BitVec 5) (c : Word) (rest : List Input)
    (hin : s.inputs = .access (.write addr c) :: rest) (ha : windowReg addr = .cmd) :
    step s = writeCommand c { s with inputs := rest } := by
  rw [step_cons s _ rest hin]
  exact hostWrite_cmd addr c _ ha

/-- Settles O9: such a word decodes to no command, so its write is the discard of an illegal word. -/
theorem illegalWordIsDiscarded : Obligations.IllegalWordIsDiscarded := by
  unfold Obligations.IllegalWordIsDiscarded
  intro s addr c rest hin ha hinit hfinal hupdate
  obtain ⟨e, hd⟩ := decode_error_of_not_legal c hinit hfinal hupdate
  rw [step_cmdWrite s addr c rest hin ha, writeCommand_error c e _ hd, discardIllegal_eq]

end Sys2Proof.Machine
end

section
/-! PROOFS. The engine's commands (41_engine_commands.md): R121, the padding that an accepted FINAL writes. -/

namespace Sys2Proof.Machine

/-- BLEN is below 16 (R24), so at least one byte is padded and at most the whole buffer is. -/
theorem padLength_bounds (blen : BitVec 4) : 1 ≤ padLength blen ∧ padLength blen ≤ 16 := by
  have hblen : blen.toNat < 16 := blen.isLt
  unfold padLength
  omega

theorem padBuffer_get_pad (buf : DataReg) (blen : BitVec 4) (i : Nat) (h : i < 16) (hpad : blen.toNat ≤ i) :
    (padBuffer buf blen)[i] = .byte (BitVec.ofNat 8 (padLength blen)) := by
  rw [padBuffer_get buf blen i h, if_neg (Nat.not_lt.mpr hpad), padLength]

/-- The two transforms of FINAL leave the padded buffer (R120). -/
theorem doFinal_buf (e e' : Engine) (h : doFinal e = some e') : e'.buf = padBuffer e.buf e.blen := by
  obtain ⟨x, ck, m, -, -, hm, rfl⟩ := (doFinal_eq_some e e').1 h
  exact hm.symm

/-- With BUSY = 0, FAULT = 0 and LC = ACTIVE, a FINAL that goes on has been accepted with its own effect (R100, R120). -/
theorem execFinal_active_next (s t : State) (hb : s.engine.busy = false) (hf : s.engine.fault = false)
    (hl : s.engine.lc = .active) :
    execFinal s = .next t ↔ ∃ e, doFinal s.engine = some e ∧ t = accepted s e s.message := by
  rw [execFinal, whenIdle_idle _ _ hb, whenActive_active _ _ hf hl, accept_eq_next]

/-- Settles O24: an accepted FINAL leaves in BUF the padded buffer, whose elements from BLEN on hold the pad length. -/
theorem paddingIsThePadLength : Obligations.PaddingIsThePadLength := by
  unfold Obligations.PaddingIsThePadLength
  intro s t h hb hf hl
  obtain ⟨e, he, rfl⟩ := (execFinal_active_next s t hb hf hl).1 h
  obtain ⟨hlow, hhigh⟩ := padLength_bounds s.engine.blen
  refine ⟨padLength s.engine.blen, rfl, hlow, hhigh, fun i hi => ?_⟩
  rw [accepted_buf, doFinal_buf _ _ he]
  exact padBuffer_get_pad _ _ i.val i.isLt hi

end Sys2Proof.Machine
end

section
/-! PROOFS. The block transform (42_block_transform.md) by its loops: the rounds of Mix (R141 to R145) and the checksum fold
(R146), each byte in terms of the byte written just before it. -/

namespace Sys2Proof.Machine

/-! ### The rounds of Mix -/

/-- The working buffer and the carry before round j, as the rounds of Mix leave them (R141, R142). -/
def beforeRound (x m : Block) (j : Nat) : List Byte × Byte :=
  (List.range j).foldl mixRound (mixStart x.toList m.toList, 0)

theorem beforeRound_succ (x m : Block) (j : Nat) : beforeRound x m (j + 1) = mixRound (beforeRound x m j) j := by
  simp [beforeRound, List.range_succ]

theorem beforeRound_length (x m : Block) (j : Nat) : (beforeRound x m j).1.length = 48 := by
  simp [beforeRound, mixRounds_length, mixStart]

/-- The buffer starts as X, then M, then their XOR (R141). -/
theorem beforeRound_zero_get (x m : Block) (i : Fin 16) :
    (beforeRound x m 0).1.getD i.val 0 = x[i] ∧ (beforeRound x m 0).1.getD (16 + i.val) 0 = m[i] ∧
      (beforeRound x m 0).1.getD (32 + i.val) 0 = m[i] ^^^ x[i] := by
  have hi : i.val < 16 := i.isLt
  refine ⟨?_, ?_, ?_⟩
  · simp [beforeRound, mixStart, List.getD_eq_getElem?_getD, List.getElem?_append, hi]
  · simp [beforeRound, mixStart, List.getD_eq_getElem?_getD, List.getElem?_append, hi]
  · have hm : ¬ 32 + i.val < 16 := by omega
    have hxor : ¬ 32 + i.val - 16 < 16 := by omega
    have hindex : 32 + i.val - 16 - 16 = i.val := by omega
    simp [beforeRound, mixStart, List.getD_eq_getElem?_getD, List.getElem?_append, hm, hxor, hindex, hi]

/-- The first byte of a round is XORed with S at the carry (R142). -/
theorem mixRound_first (p : List Byte × Byte) (j : Nat) (h : 0 < p.1.length) :
    (mixRound p j).1.getD 0 0 = p.1.getD 0 0 ^^^ sbox p.2 := by
  simpa [mixRound, h] using mixBytes_get p.1 p.2 0 h

/-- Every further byte of a round is XORed with S at the byte that the round wrote just before it (R142). -/
theorem mixRound_next (p : List Byte × Byte) (j k : Nat) (h : k + 1 < p.1.length) :
    (mixRound p j).1.getD (k + 1) 0 = p.1.getD (k + 1) 0 ^^^ sbox ((mixRound p j).1.getD k 0) := by
  rw [List.getD_eq_getElem p.1 0 h]
  exact mixBytes_get p.1 p.2 (k + 1) h

/-- The carry after round j is the last byte written plus j (R142). -/
theorem mixRound_carry (p : List Byte × Byte) (j k : Nat) (h : p.1.length = k + 1) :
    (mixRound p j).2 = (mixRound p j).1.getD k 0 + BitVec.ofNat 8 j := by
  have hlast := mixBytes_carry p.1 p.2 (List.ne_nil_of_length_eq_add_one h)
  rw [h, Nat.add_sub_cancel] at hlast
  exact congrArg (· + BitVec.ofNat 8 j) hlast

/-- Settles O29: w and t are the buffer and the carry before each round, and round j takes them to those before round j + 1. -/
theorem mixFollowsTheRoundLoops : Obligations.MixFollowsTheRoundLoops := by
  unfold Obligations.MixFollowsTheRoundLoops
  intro x m
  refine ⟨fun j k => (beforeRound x m j).1.getD k 0, fun j => (beforeRound x m j).2, beforeRound_zero_get x m, rfl, ?_, ?_⟩
  · intro j _
    have hlen : (beforeRound x m j).1.length = 48 := beforeRound_length x m j
    simp only [beforeRound_succ]
    exact ⟨mixRound_first _ j (by omega), fun k hk => mixRound_next _ j k (by omega), mixRound_carry _ j 47 hlen⟩
  · exact fun i => mix_get x m i.val i.isLt

/-! ### The checksum fold -/

/-- The first byte of a fold uses C[15] of the checksum before it (R146). -/
theorem fold_first (ck m : Block) : (fold ck m)[0] = ck[0] ^^^ sbox (m[0] ^^^ ck[15]) := by
  rw [fold_get ck m 0 (by decide), foldBytes_get ck.toList m.toList ck[15] 0 (by simp) (by simp)]
  simp

/-- Every further byte of a fold uses the byte that the fold wrote just before it (R146). -/
theorem fold_next (ck m : Block) (i : Nat) (h : i + 1 < 16) :
    (fold ck m)[i + 1] = ck[i + 1] ^^^ sbox (m[i + 1] ^^^ (fold ck m)[i]) := by
  rw [fold_get ck m (i + 1) h, fold_get ck m i (by omega),
    foldBytes_get ck.toList m.toList ck[15] (i + 1) (by simpa using h) (by simpa using h)]
  simp

/-- Settles O30: the byte before the first is C[15], and before every other the byte just written. -/
theorem foldFollowsTheChecksumLoop : Obligations.FoldFollowsTheChecksumLoop := by
  unfold Obligations.FoldFollowsTheChecksumLoop
  intro ck m
  exact ⟨fold_first ck m, fun i => fold_next ck m i.val (by omega)⟩

end Sys2Proof.Machine
end

section
/-! PROOFS. Faults (60_exceptions.md): what recording one does (R202), the log of all of them (R213), and the two ways to
clear one (R207). -/

namespace Sys2Proof.Machine

/-- A step leaves the fault log or appends to it the one cause it records (R213); the rest of the engine's behaviour,
INIT and reset included, does not touch the log. -/
theorem step_faultLog (s t : State) (h : step s = .next t) :
    t.faultLog = s.faultLog ∨ ∃ c, t.faultLog = s.faultLog ++ [c] := by
  rcases step_engine_cases s t h with ⟨-, hlog, -⟩ | ⟨-, -, hlog, -⟩ | ⟨-, -, hlog, -⟩ | ⟨_, c, -, -, hlog, -⟩ |
    ⟨_, -, -, -, -, hlog, -⟩ | ⟨_, _, _, -, -, -, -, -, -, -, hlog, -⟩ | ⟨_, _, -, -, -, -, -, -, -, hlog, -⟩
  · exact .inl hlog
  · exact .inl hlog
  · exact .inl hlog
  · exact .inr ⟨c, hlog⟩
  · exact .inl hlog
  · exact .inl hlog
  · exact .inl hlog

/-- Settles O7: `raiseFault` appends by definition, and a step appends at most one cause. -/
theorem faultLogOnlyGrows : Obligations.FaultLogOnlyGrows := by
  unfold Obligations.FaultLogOnlyGrows
  refine ⟨raiseFault_faultLog, fun s t h => ?_⟩
  rcases step_faultLog s t h with hlog | ⟨c, hlog⟩
  · exact ⟨[], by rw [hlog, List.append_nil]⟩
  · exact ⟨[c], hlog⟩

/-- An idle engine takes INIT whole, whatever FAULT and LC are (R111). -/
theorem execInit_idle (s : State) (hb : s.engine.busy = false) :
    execInit s = .next (accepted s (doInit s.engine) []) :=
  (execInit_next s _).2 (.inr ⟨hb, rfl⟩)

/-- A step that clears FAULT is an accepted INIT or reset, and clears FCAUSE with it (R207): UPDATE and FINAL are accepted
only with FAULT = 0, and a discarded command leaves FAULT = 1. -/
theorem step_clears_fault (s t : State) (h : step s = .next t) (hs : s.engine.fault = true)
    (ht : t.engine.fault = false) :
    t.engine.fcause = none ∧
      ((∃ (addr : BitVec 5) (rest : List Input), s.engine.busy = false ∧ windowReg addr = .cmd ∧
          s.inputs = .access (.write addr (encode .init)) :: rest) ∨
        (∃ rest : List Input, s.inputs = .reset :: rest ∨ s.inputs = .powerLoss :: rest)) := by
  rcases step_engine_cases s t h with ⟨he, -⟩ | ⟨-, he, -⟩ | ⟨hreset, he, -⟩ | ⟨_, _, -, he, -⟩ |
    ⟨v, ⟨addr, rest, hin, ha⟩, hd, hb, he, -⟩ | ⟨_, _, _, -, -, -, hclear, -⟩ | ⟨_, _, -, -, -, hclear, -⟩
  · simp [he, hs] at ht
  · simp [he, hs] at ht
  · exact ⟨by rw [he, reset_fcause], .inr hreset⟩
  · simp [he] at ht
  · rw [(decode_eq_ok_iff_encode v .init).1 hd] at hin
    exact ⟨by rw [he, doInit_fcause], .inl ⟨addr, rest, hb, ha, hin⟩⟩
  · simp [hs] at hclear
  · simp [hs] at hclear

/-- Settles O12: no other step clears a fault, and INIT on an idle engine and reset always take place. -/
theorem onlyInitAndResetClearAFault : Obligations.OnlyInitAndResetClearAFault := by
  unfold Obligations.OnlyInitAndResetClearAFault
  refine ⟨step_clears_fault, fun s hb => ⟨_, execInit_idle s hb, ?_, ?_⟩, fun s rest hin => ⟨_, step_reset s rest hin, ?_, ?_⟩⟩
  · exact doInit_fault s.engine
  · exact doInit_fcause s.engine
  · exact reset_fault
  · exact reset_fcause

/-- Settles O6: the engine's part of `raiseFault` is `recordFault`, whose two cases these are. -/
theorem raisingAFaultRecordsTheFirstCause : Obligations.RaisingAFaultRecordsTheFirstCause := by
  unfold Obligations.RaisingAFaultRecordsTheFirstCause
  exact fun c s => ⟨recordFault_of_clear s.engine c, recordFault_of_fault s.engine c⟩

end Sys2Proof.Machine
end

section
/-! PROOFS. The encoding (30_encoding.md): decoding and encoding are inverse (R80, R82, R86), the 258 legal words (R83), and the
step that runs a decoded command (R100). -/

namespace Sys2Proof

/-- R81: the operand's type bounds it. -/
theorem Instr.wellFormed (i : Instr) : i.WellFormed := by
  cases i with
  | init => trivial
  | update b => exact Nat.le_of_lt_succ b.isLt
  | final => trivial

/-- Settles O2: a word decodes to an instruction exactly when it is that instruction's word. -/
theorem decodeAndEncodeAgree : Obligations.DecodeAndEncodeAgree := by
  unfold Obligations.DecodeAndEncodeAgree
  constructor
  · intro i _
    exact (decode_eq_ok_iff_encode (encode i) i).2 rfl
  · intro c i h
    exact ⟨((decode_eq_ok_iff_encode c i).1 h).symm, i.wellFormed⟩

/-- Settles O4: the legal words are the commands' words, whose values are computed. -/
theorem legalWordsAreThe258 : Obligations.LegalWordsAreThe258 := by
  unfold Obligations.LegalWordsAreThe258
  intro c
  refine ⟨?_, fun b => ?_, ?_⟩
  · rw [decode_eq_ok_iff_encode, encode_init]
  · rw [decode_eq_ok_iff_encode, encode_update]
  · rw [decode_eq_ok_iff_encode, encode_final]

/-- Settles O1: the eleven words are decoded by evaluation. -/
theorem sampleWordsDecode : Obligations.SampleWordsDecode := by
  unfold Obligations.SampleWordsDecode
  decide

/-- The instruction read from the 32 low bits of a number is that of its command word (R87). -/
theorem decode_of_decodeTableWord (w : Nat) (i : Instr) (h : decodeTableWord 32 w = some i) :
    decode (BitVec.ofNat 32 (w % 2 ^ 32)) = .ok i := by
  replace h : (decode (BitVec.ofNat 32 (w % 2 ^ 32))).toOption = some i := h
  cases hd : decode (BitVec.ofNat 32 (w % 2 ^ 32)) with
  | error e => rw [hd] at h; cases h
  | ok j => rw [hd] at h; cases h; rfl

end Sys2Proof

namespace Sys2Proof.Machine

/-- A step whose turn is a write of a command's word to CMD runs that command. -/
theorem step_command (s : State) (addr : BitVec 5) (c : Word) (rest : List Input) (i : Instr)
    (hin : s.inputs = .access (.write addr c) :: rest) (ha : windowReg addr = .cmd) (hd : decode c = .ok i) :
    step s = exec i { s with inputs := rest } := by
  rw [step_cmdWrite s addr c rest hin ha, writeCommand_ok c i _ hd]

/-- Settles O5: `withFetchWord` places a write to CMD, so its clause is a case of the first. -/
theorem stepRunsTheDecodedCommand : Obligations.StepRunsTheDecodedCommand := by
  unfold Obligations.StepRunsTheDecodedCommand
  refine ⟨step_command, fun s w i h => ?_⟩
  exact step_command (s.withFetchWord 32 w) _ _ s.inputs i rfl (windowReg_offset .cmd) (decode_of_decodeTableWord w i h)

end Sys2Proof.Machine
end

section
/-! PROOFS. The register invariants (10_state.md, section 5): every step keeps them (R34, R36), and a machine that meets them
never reads ⊥ (R35). -/

namespace Sys2Proof.Machine

/-! ### BLEN and FCAUSE in step with the lifecycle and FAULT (R36) -/

theorem recordFault_fieldsAgree (e : Engine) (c : Cause) (h : e.FieldsAgree) : (e.recordFault c).FieldsAgree := by
  cases hf : e.fault with
  | true => rwa [recordFault_of_fault e c hf]
  | false =>
    rw [recordFault_of_clear e c hf]
    exact ⟨h.1, by simp⟩

theorem reset_fieldsAgree : Engine.reset.FieldsAgree := ⟨fun _ => rfl, by simp⟩

theorem doInit_fieldsAgree (e : Engine) : (doInit e).FieldsAgree := ⟨fun _ => rfl, by simp⟩

/-- UPDATE runs only with LC = ACTIVE and does not write it, so its BLEN is free. -/
theorem doUpdate_fieldsAgree (b : Byte) (e e' : Engine) (hl : e.lc = .active) (hu : doUpdate b e = some e')
    (h : e.FieldsAgree) : e'.FieldsAgree := by
  obtain ⟨hlc, hfault, hfcause⟩ := doUpdate_keeps b e e' hu
  refine ⟨fun hfin => ?_, ?_⟩
  · simp [hlc, hl] at hfin
  · rw [hfault, hfcause]
    exact h.2

theorem doFinal_fieldsAgree (e e' : Engine) (hu : doFinal e = some e') (h : e.FieldsAgree) : e'.FieldsAgree := by
  obtain ⟨-, hblen, hfault, hfcause⟩ := doFinal_keeps e e' hu
  refine ⟨fun _ => hblen, ?_⟩
  rw [hfault, hfcause]
  exact h.2

/-- R36: every step keeps the agreement of the fields. -/
theorem step_fieldsAgree (s t : State) (h : step s = .next t) (hs : s.engine.FieldsAgree) : t.engine.FieldsAgree := by
  rcases step_engine_cases s t h with ⟨he, -⟩ | ⟨-, he, -⟩ | ⟨-, he, -⟩ | ⟨_, c, -, he, -⟩ | ⟨_, -, -, -, he, -⟩ |
    ⟨_, b, e, -, -, -, -, hl, hu, he, -⟩ | ⟨_, e, -, -, -, -, -, hu, he, -⟩ <;> rw [he]
  · exact hs
  · exact hs
  · exact reset_fieldsAgree
  · exact recordFault_fieldsAgree s.engine c hs
  · exact doInit_fieldsAgree s.engine
  · exact doUpdate_fieldsAgree b s.engine e hl hu hs
  · exact doFinal_fieldsAgree s.engine e hu hs

/-! ### The elements that hold values (R34) -/

/-- A register that holds a block has no element ⊥. -/
theorem ofBlock_ne_bot (m : Block) (i : Fin 16) : (ofBlock m)[i] ≠ .bot := by
  rw [Fin.getElem_fin, ofBlock_get]
  exact nofun

/-- `Written` speaks of the data registers, BLEN and LC only. -/
theorem written_congr (e e' : Engine) (hstate : e'.state = e.state) (hcksum : e'.cksum = e.cksum) (hbuf : e'.buf = e.buf)
    (hblen : e'.blen = e.blen) (hlc : e'.lc = e.lc) (h : e.Written) : e'.Written := by
  unfold Engine.Written at *
  rwa [hstate, hcksum, hbuf, hblen, hlc]

theorem recordFault_written (e : Engine) (c : Cause) (h : e.Written) : (e.recordFault c).Written :=
  written_congr e _ (recordFault_state e c) (recordFault_cksum e c) (recordFault_buf e c) (recordFault_blen e c)
    (recordFault_lc e c) h

theorem reset_written : Engine.reset.Written := fun h => absurd rfl h

/-- With BLEN = 0 no byte is staged, so STATE and CKSUM are all that must hold values. -/
theorem written_of_blocks (e : Engine) (x ck : Block) (hstate : e.state = ofBlock x) (hcksum : e.cksum = ofBlock ck)
    (hblen : e.blen = 0) : e.Written := by
  intro _
  rw [hstate, hcksum, hblen]
  exact ⟨ofBlock_ne_bot x, ofBlock_ne_bot ck, fun i hi => absurd hi (Nat.not_lt_zero _)⟩

theorem doInit_written (e : Engine) : (doInit e).Written := written_of_blocks _ _ _ rfl rfl rfl

/-- BLEN below 15 is counted without overflow (R24). -/
theorem blen_succ_toNat (blen : BitVec 4) (h : blen ≠ 15) : (blen + 1).toNat = blen.toNat + 1 := by
  bv_omega

/-- Staging puts a byte behind the staged ones (R115). -/
theorem stageByte_ne_bot (buf : DataReg) (blen : BitVec 4) (b : Byte)
    (h : ∀ i : Fin 16, i.val < blen.toNat → buf[i] ≠ .bot) (i : Fin 16) (hi : i.val < blen.toNat + 1) :
    (stageByte buf blen b)[i] ≠ .bot := by
  rw [Fin.getElem_fin, stageByte_get]
  split
  · exact nofun
  · exact h i (by omega)

/-- Padding leaves a value in every element, if the staged bytes are values (R120). -/
theorem padBuffer_ne_bot (buf : DataReg) (blen : BitVec 4) (h : ∀ i : Fin 16, i.val < blen.toNat → buf[i] ≠ .bot)
    (i : Fin 16) : (padBuffer buf blen)[i] ≠ .bot := by
  rw [Fin.getElem_fin, padBuffer_get]
  split
  · next hi => exact h i hi
  · exact nofun

theorem doUpdate_written (b : Byte) (e e' : Engine) (hu : doUpdate b e = some e') (h : e.Written) : e'.Written := by
  rcases (doUpdate_eq_some b e e').1 hu with ⟨hne, rfl⟩ | ⟨-, x, ck, m, -, -, -, rfl⟩
  · intro hlc
    obtain ⟨hstate, hcksum, hbuf⟩ := h hlc
    refine ⟨hstate, hcksum, fun i hi => stageByte_ne_bot e.buf e.blen b hbuf i ?_⟩
    rwa [← blen_succ_toNat e.blen hne]
  · exact written_of_blocks _ _ _ rfl rfl rfl

theorem doFinal_written (e e' : Engine) (hu : doFinal e = some e') : e'.Written := by
  obtain ⟨x, ck, m, -, -, -, rfl⟩ := (doFinal_eq_some e e').1 hu
  exact written_of_blocks _ _ _ rfl rfl rfl

/-- R34: every step keeps the values that the registers hold. -/
theorem step_written (s t : State) (h : step s = .next t) (hs : s.engine.Written) : t.engine.Written := by
  rcases step_engine_cases s t h with ⟨he, -⟩ | ⟨-, he, -⟩ | ⟨-, he, -⟩ | ⟨_, c, -, he, -⟩ | ⟨_, -, -, -, he, -⟩ |
    ⟨_, b, e, -, -, -, -, -, hu, he, -⟩ | ⟨_, e, -, -, -, -, -, hu, he, -⟩ <;> rw [he]
  · exact hs
  · exact hs
  · exact reset_written
  · exact recordFault_written s.engine c hs
  · exact doInit_written s.engine
  · exact doUpdate_written b s.engine e hu hs
  · exact doFinal_written s.engine e hu

/-- Settles O49: the two invariants are kept apart from each other, case by case of what a step does to the engine. -/
theorem stepKeepsTheRegisterInvariants : Obligations.StepKeepsTheRegisterInvariants := by
  unfold Obligations.StepKeepsTheRegisterInvariants
  rintro s t ⟨hagree, hwritten⟩ h
  exact ⟨step_fieldsAgree s t h hagree, step_written s t h hwritten⟩

/-- Settles O48: after reset nothing is required of the data registers, and LC = UNINIT opens no hash. -/
theorem resetMeetsTheInvariants : Obligations.ResetMeetsTheInvariants := by
  unfold Obligations.ResetMeetsTheInvariants
  exact ⟨⟨reset_fieldsAgree, reset_written⟩, ⟨nofun, nofun⟩, rfl⟩

/-! ### No step reads ⊥ (R35) -/

/-- STATE and CKSUM hold blocks once INIT has been accepted. -/
theorem written_blocks (e : Engine) (h : e.Written) (hlc : e.lc ≠ .uninit) :
    ∃ x ck, e.state = ofBlock x ∧ e.cksum = ofBlock ck := by
  obtain ⟨hstate, hcksum, -⟩ := h hlc
  obtain ⟨x, hx⟩ := exists_ofBlock e.state hstate
  obtain ⟨ck, hck⟩ := exists_ofBlock e.cksum hcksum
  exact ⟨x, ck, hx, hck⟩

theorem doUpdate_of_written (b : Byte) (e : Engine) (h : e.Written) (hl : e.lc = .active) :
    ∃ e', doUpdate b e = some e' := by
  have hlc : e.lc ≠ .uninit := by simp [hl]
  by_cases hlast : e.blen = 15
  · obtain ⟨x, ck, hx, hck⟩ := written_blocks e h hlc
    obtain ⟨-, -, hbuf⟩ := h hlc
    obtain ⟨m, hm⟩ := exists_ofBlock (stageByte e.buf e.blen b) fun i =>
      stageByte_ne_bot e.buf e.blen b hbuf i (by rw [hlast]; exact i.isLt)
    exact ⟨_, (doUpdate_eq_some b e _).2 (.inr ⟨hlast, x, ck, m, hx, hck, hm, rfl⟩)⟩
  · exact ⟨_, (doUpdate_eq_some b e _).2 (.inl ⟨hlast, rfl⟩)⟩

theorem doFinal_of_written (e : Engine) (h : e.Written) (hl : e.lc = .active) : ∃ e', doFinal e = some e' := by
  have hlc : e.lc ≠ .uninit := by simp [hl]
  obtain ⟨x, ck, hx, hck⟩ := written_blocks e h hlc
  obtain ⟨-, -, hbuf⟩ := h hlc
  obtain ⟨m, hm⟩ := exists_ofBlock (padBuffer e.buf e.blen) (padBuffer_ne_bot e.buf e.blen hbuf)
  exact ⟨_, (doFinal_eq_some e _).2 ⟨x, ck, m, hx, hck, hm, rfl⟩⟩

/-- A command goes on where the registers hold what it reads. -/
theorem exec_next_of_written (i : Instr) (s : State) (h : s.engine.Written) : ∃ t, exec i s = .next t := by
  rcases exec_stop i s with hnext | ⟨-, -, hl, -, ⟨b, -, hnone⟩ | ⟨-, hnone⟩⟩
  · exact hnext
  · obtain ⟨e, he⟩ := doUpdate_of_written b s.engine h hl
    simp [hnone] at he
  · obtain ⟨e, he⟩ := doFinal_of_written s.engine h hl
    simp [hnone] at he

theorem writeCommand_next_of_written (c : Word) (s : State) (h : s.engine.Written) : ∃ t, writeCommand c s = .next t := by
  cases hd : decode c with
  | ok i =>
    rw [writeCommand_ok c i s hd]
    exact exec_next_of_written i s h
  | error e =>
    rw [writeCommand_error c e s hd]
    exact ⟨_, discardIllegal_eq s⟩

/-- An open view reads only elements that hold values (R35). -/
theorem readWindow_of_written (e : Engine) (r : WindowReg) (h : e.Written) : ∃ v, readWindow e r = some v := by
  cases hopen : digestOpen e with
  | false => exact readWindow_some_of_closed e r hopen
  | true =>
    obtain ⟨hl, -⟩ := (digestOpen_eq_true e).1 hopen
    obtain ⟨x, -, hx, -⟩ := written_blocks e h (by simp [hl])
    cases r with
    | cmd => exact ⟨0, rfl⟩
    | status => exact ⟨statusWord e, rfl⟩
    | rsvd0 => exact ⟨0, rfl⟩
    | rsvd1 => exact ⟨0, rfl⟩
    | digest n => exact ⟨_, readWindow_digest_open e n x hopen hx⟩

theorem hostAccess_next_of_written (a : HostAccess) (s : State) (h : s.engine.Written) : ∃ t, hostAccess a s = .next t := by
  cases a with
  | read addr =>
    obtain ⟨v, hv⟩ := readWindow_of_written s.engine (windowReg addr) h
    exact ⟨_, hostRead_of_readWindow addr s v hv⟩
  | write addr v =>
    change ∃ t, hostWrite addr v s = .next t
    by_cases ha : windowReg addr = .cmd
    · rw [hostWrite_cmd addr v s ha]
      exact writeCommand_next_of_written v s h
    · exact ⟨s, hostWrite_ignored addr v s ha⟩

/-- Settles O52: of the turns only an access reads an element, and it goes on; the others go on or are refused. -/
theorem noStepReadsBottom : Obligations.NoStepReadsBottom := by
  unfold Obligations.NoStepReadsBottom
  rintro s f ⟨-, hwritten⟩ h
  cases hin : s.inputs with
  | nil =>
    rw [step_nil s hin] at h
    cases h
  | cons i rest =>
    rw [step_cons s i rest hin] at h
    cases i with
    | access a =>
      obtain ⟨t, ht⟩ := hostAccess_next_of_written a { s with inputs := rest } hwritten
      exact absurd (ht.symm.trans h) nofun
    | waitIdle n => cases h
    | engineTurn => cases h
    | reset => cases h
    | powerLoss => cases h
    | otherHost a => cases h
    | accessDuringReset a => cases h

end Sys2Proof.Machine
end

section
/-! PROOFS. The digest invariant (41_engine_commands.md, section 5): every step keeps it (R125), and with it an open DIGEST view
shows MD2 of the message (R62). -/

namespace Sys2Proof.Machine

/-- `Holds` speaks of the data registers and BLEN only. -/
theorem holds_congr (e e' : Engine) (m : List Byte) (hstate : e'.state = e.state) (hcksum : e'.cksum = e.cksum)
    (hbuf : e'.buf = e.buf) (hblen : e'.blen = e.blen) (h : e.Holds m) : e'.Holds m := by
  unfold Engine.Holds at *
  rwa [hstate, hcksum, hbuf, hblen]

/-- INIT opens the hash of the empty message (R110). -/
theorem doInit_holds (e : Engine) : (doInit e).Holds [] :=
  ⟨rfl, rfl, rfl, fun _ hi => absurd hi (Nat.not_lt_zero _)⟩

/-! ### UPDATE -/

/-- With the new byte staged, BUF holds the end of the longer message up to and with BUF[BLEN] (R115). -/
theorem stageByte_of_holds (e : Engine) (m : List Byte) (b : Byte) (h : e.Holds m) (i : Nat) (hi : i < 16)
    (hle : i ≤ e.blen.toNat) :
    (stageByte e.buf e.blen b)[i] = .byte ((m ++ [b]).getD (m.length - e.blen.toNat + i) 0) := by
  obtain ⟨-, -, hblen, hbuf⟩ := h
  rw [stageByte_get]
  split
  · next hlast =>
    have hend : m.length - e.blen.toNat + i = m.length := by omega
    simp [hend]
  · have hlt : i < e.blen.toNat := by omega
    rw [getD_append_left m [b] _ (by omega)]
    exact hbuf ⟨i, hi⟩ hlt

/-- UPDATE with BLEN < 15 extends the staged end of the message by its byte. -/
theorem holds_of_staged (e : Engine) (m : List Byte) (b : Byte) (hne : e.blen ≠ 15) (h : e.Holds m) :
    ({ e with buf := stageByte e.buf e.blen b, blen := e.blen + 1 } : Engine).Holds (m ++ [b]) := by
  have ⟨hstate, hcksum, hblen, _⟩ := h
  have hcount : (e.blen + 1).toNat = e.blen.toNat + 1 := blen_succ_toNat e.blen hne
  have hlen : (m ++ [b]).length = m.length + 1 := List.length_append
  have hlt : e.blen.toNat < 15 := by bv_omega
  have same_blocks : absorbBlocks (m ++ [b]) ((m ++ [b]).length / 16) = absorbBlocks m (m.length / 16) := by
    rw [hlen, show (m.length + 1) / 16 = m.length / 16 by omega]
    exact absorbBlocks_append m [b] _ (by omega)
  refine ⟨?_, ?_, ?_, fun i hi => ?_⟩
  · rw [same_blocks]
    exact hstate
  · rw [same_blocks]
    exact hcksum
  · change (e.blen + 1).toNat = _
    omega
  · change i.val < (e.blen + 1).toNat at hi
    change (stageByte e.buf e.blen b)[i] = .byte ((m ++ [b]).getD ((m ++ [b]).length - (e.blen + 1).toNat + i.val) 0)
    rw [show (m ++ [b]).length - (e.blen + 1).toNat = m.length - e.blen.toNat by omega]
    exact stageByte_of_holds e m b h i.val i.isLt (by omega)

/-- On the 16th byte BUF holds the next whole block of the message. -/
theorem messageBlock_of_staged (e : Engine) (m : List Byte) (b : Byte) (block : Block) (hlast : e.blen = 15) (h : e.Holds m)
    (hblock : stageByte e.buf e.blen b = ofBlock block) : messageBlock (m ++ [b]) (m.length / 16) = block := by
  have ⟨_, _, hblen, _⟩ := h
  have h15 : e.blen.toNat = 15 := by simp [hlast]
  apply Vector.ext
  intro i hi
  have hstaged := stageByte_of_holds e m b h i hi (by omega)
  rw [hblock, ofBlock_get, Elem.byte.injEq] at hstaged
  rw [messageBlock, Vector.getElem_ofFn, hstaged, show 16 * (m.length / 16) + i = m.length - e.blen.toNat + i by omega]

/-- The 16th byte of a block leaves the hash of one block more, with nothing staged. -/
theorem holds_of_full (e e' : Engine) (m : List Byte) (b : Byte) (x ck block : Block) (hlast : e.blen = 15) (h : e.Holds m)
    (hx : e.state = ofBlock x) (hck : e.cksum = ofBlock ck) (hblock : stageByte e.buf e.blen b = ofBlock block)
    (hstate' : e'.state = ofBlock (mix x block)) (hcksum' : e'.cksum = ofBlock (fold ck block)) (hblen' : e'.blen = 0) :
    e'.Holds (m ++ [b]) := by
  have ⟨hstate, hcksum, hblen, _⟩ := h
  have hx' : x = (absorbBlocks m (m.length / 16)).1 := (ofBlock_inj _ _).1 (hx.symm.trans hstate)
  have hck' : ck = (absorbBlocks m (m.length / 16)).2 := (ofBlock_inj _ _).1 (hck.symm.trans hcksum)
  have h15 : e.blen.toNat = 15 := by simp [hlast]
  have hlen : (m ++ [b]).length = m.length + 1 := List.length_append
  have one_block_more : absorbBlocks (m ++ [b]) ((m ++ [b]).length / 16) = transform x ck block := by
    rw [hlen, show (m.length + 1) / 16 = m.length / 16 + 1 by omega, absorbBlocks_succ,
      absorbBlocks_append m [b] _ (by omega), messageBlock_of_staged e m b block hlast h hblock, hx', hck']
  have nothing_staged : 0 = (m ++ [b]).length % 16 := by omega
  unfold Engine.Holds
  rw [one_block_more, hblen']
  exact ⟨hstate', hcksum', nothing_staged, fun i hi => absurd hi (Nat.not_lt_zero _)⟩

/-- UPDATE takes its byte into the hash (R115, R125). -/
theorem doUpdate_holds (b : Byte) (e e' : Engine) (m : List Byte) (hu : doUpdate b e = some e') (h : e.Holds m) :
    e'.Holds (m ++ [b]) := by
  rcases (doUpdate_eq_some b e e').1 hu with ⟨hne, rfl⟩ | ⟨hlast, x, ck, block, hx, hck, hblock, rfl⟩
  · exact holds_of_staged e m b hne h
  · exact holds_of_full e _ m b x ck block hlast h hx hck hblock rfl rfl rfl

/-! ### FINAL -/

/-- FINAL's padding leaves in BUF the last block of the padded message (R120, R121). -/
theorem padBuffer_of_holds (e : Engine) (m : List Byte) (h : e.Holds m) : padBuffer e.buf e.blen = ofBlock (paddedBlock m) := by
  obtain ⟨-, -, hblen, hbuf⟩ := h
  apply Vector.ext
  intro i hi
  rw [padBuffer_get, ofBlock_get]
  simp only [paddedBlock, Vector.getElem_ofFn, ← hblen]
  split
  · next hlt => exact hbuf ⟨i, hi⟩ hlt
  · rfl

/-- FINAL leaves MD2 of the message in STATE (R120 to R125). -/
theorem doFinal_md2 (e e' : Engine) (m : List Byte) (hu : doFinal e = some e') (h : e.Holds m) :
    e'.state = ofBlock (md2 m) := by
  obtain ⟨x, ck, block, hx, hck, hblock, rfl⟩ := (doFinal_eq_some e e').1 hu
  have hblock' : block = paddedBlock m := (ofBlock_inj _ _).1 (hblock.symm.trans (padBuffer_of_holds e m h))
  obtain ⟨hstate, hcksum, -, -⟩ := h
  have hx' : x = (absorbBlocks m (m.length / 16)).1 := (ofBlock_inj _ _).1 (hx.symm.trans hstate)
  have hck' : ck = (absorbBlocks m (m.length / 16)).2 := (ofBlock_inj _ _).1 (hck.symm.trans hcksum)
  subst hx' hck' hblock'
  rfl

/-! ### The invariant -/

/-- A step that leaves the data registers, BLEN, LC and the message keeps the digest invariant. -/
theorem digestInv_congr (s t : State) (hstate : t.engine.state = s.engine.state) (hcksum : t.engine.cksum = s.engine.cksum)
    (hbuf : t.engine.buf = s.engine.buf) (hblen : t.engine.blen = s.engine.blen) (hlc : t.engine.lc = s.engine.lc)
    (hmessage : t.message = s.message) (h : s.DigestInv) : t.DigestInv := by
  obtain ⟨hactive, hfinalized⟩ := h
  unfold State.DigestInv
  rw [hstate, hblen, hlc, hmessage]
  exact ⟨fun hl => holds_congr s.engine t.engine s.message hstate hcksum hbuf hblen (hactive hl), hfinalized⟩

/-- While LC = ACTIVE the invariant says that the engine holds the message. -/
theorem digestInv_of_holds (s : State) (hl : s.engine.lc = .active) (h : s.engine.Holds s.message) : s.DigestInv :=
  ⟨fun _ => h, fun hfin => by simp [hl] at hfin⟩

/-- Settles O50: INIT opens the hash of the empty message, UPDATE extends it, FINAL ends it, and reset closes it; the other
steps leave what the invariant speaks of. -/
theorem stepKeepsTheDigestInvariant : Obligations.StepKeepsTheDigestInvariant := by
  unfold Obligations.StepKeepsTheDigestInvariant
  intro s t hs h
  rcases step_engine_cases s t h with ⟨he, -, hm⟩ | ⟨-, he, -, hm⟩ | ⟨-, he, -, -⟩ | ⟨_, c, -, he, -, hm, -⟩ |
    ⟨_, -, -, -, he, -, hm⟩ | ⟨_, b, e, -, -, -, -, hl, hu, he, -, hm⟩ | ⟨_, e, -, -, -, -, hl, hu, he, -, hm⟩
  · exact digestInv_congr s t (by rw [he]) (by rw [he]) (by rw [he]) (by rw [he]) (by rw [he]) hm hs
  · exact digestInv_congr s t (by rw [he]) (by rw [he]) (by rw [he]) (by rw [he]) (by rw [he]) hm hs
  · unfold State.DigestInv
    rw [he, reset_lc]
    exact ⟨nofun, nofun⟩
  · exact digestInv_congr s t (by simp [he]) (by simp [he]) (by simp [he]) (by simp [he]) (by simp [he]) hm hs
  · apply digestInv_of_holds t (by rw [he, doInit_lc])
    rw [he, hm]
    exact holds_congr _ _ [] rfl rfl rfl rfl (doInit_holds s.engine)
  · obtain ⟨hlc, -⟩ := doUpdate_keeps b s.engine e hu
    apply digestInv_of_holds t (by rw [he, hlc, hl])
    rw [he, hm]
    exact holds_congr e _ _ rfl rfl rfl rfl (doUpdate_holds b s.engine e s.message hu (hs.1 hl))
  · obtain ⟨hlc, hblen, -⟩ := doFinal_keeps s.engine e hu
    unfold State.DigestInv
    rw [he, hm, hlc]
    exact ⟨nofun, fun _ => ⟨doFinal_md2 s.engine e s.message hu (hs.1 hl), hblen⟩⟩

/-- Settles O51: the open view shows the lanes of STATE, which holds the digest; FAULT gates neither. -/
theorem openViewReturnsMd2 : Obligations.OpenViewReturnsMd2 := by
  unfold Obligations.OpenViewReturnsMd2
  rintro s ⟨-, hfinalized⟩ hl hb addr i ha
  obtain ⟨hstate, -⟩ := hfinalized hl
  have hopen : digestOpen s.engine = true := (digestOpen_eq_true _).2 ⟨hl, hb⟩
  have hread := readWindow_digest_open s.engine ⟨i.val / 4, by omega⟩ (md2 s.message) hopen hstate
  rw [← ha] at hread
  exact ⟨_, hostRead_of_readWindow addr s _ hread, lanesWord_element (md2 s.message) _ i rfl⟩

end Sys2Proof.Machine
end

section
/-! PROOFS. What the host, and the machine itself, cannot see: reads have no side effect (R59), a host sees the data registers
only through an open view (R223), and elements that are written before they are read influence nothing (R34, R35). -/

namespace Sys2Proof.Machine

/-- Settles O38: the state after a read shows the same window. -/
theorem readsHaveNoSideEffect : Obligations.ReadsHaveNoSideEffect := by
  unfold Obligations.ReadsHaveNoSideEffect
  intro s t addr h
  obtain ⟨v, hv, rfl⟩ := (hostRead_next addr s t).1 h
  exact ⟨v, rfl, hostRead_of_readWindow addr (recordRead s v) v hv⟩

/-- The STATUS word is made of the status fields (R54). -/
theorem statusWord_congr (e f : Engine) (h : e.SameView f) : statusWord e = statusWord f := by
  obtain ⟨hblen, hlc, hbusy, hfault, hfcause, -⟩ := h
  unfold statusWord
  rw [hblen, hlc, hbusy, hfault, hfcause]

/-- The view is open on both engines or on neither. -/
theorem digestOpen_congr (e f : Engine) (hlc : e.lc = f.lc) (hbusy : e.busy = f.busy) : digestOpen e = digestOpen f := by
  unfold digestOpen
  rw [hlc, hbusy]

theorem readWindow_congr (e f : Engine) (r : WindowReg) (h : e.SameView f) : readWindow e r = readWindow f r := by
  have ⟨_, hlc, hbusy, _, _, hstate⟩ := h
  have same_gate : digestOpen e = digestOpen f := digestOpen_congr e f hlc hbusy
  cases r with
  | cmd => rfl
  | status => exact congrArg some (statusWord_congr e f h)
  | rsvd0 => rfl
  | rsvd1 => rfl
  | digest n =>
    cases hopen : digestOpen e with
    | false => rw [readWindow_digest_closed e n hopen, readWindow_digest_closed f n (same_gate ▸ hopen)]
    | true => simp only [readWindow, ← same_gate, hstate hopen]

/-- Settles O39: STATUS is made of the status fields, and a DIGEST word of the gate and, if it is open, of STATE. -/
theorem hostSeesOnlyTheView : Obligations.HostSeesOnlyTheView := by
  unfold Obligations.HostSeesOnlyTheView
  exact readWindow_congr

/-! ### Engines alike but for stale elements -/

/-- An open view shows only live elements. -/
theorem sameView_of_sameLive (e f : Engine) (h : e.SameLive f) : e.SameView f := by
  obtain ⟨hblen, hlc, hbusy, hfault, hfcause, hstate, -⟩ := h
  refine ⟨hblen, hlc, hbusy, hfault, hfcause, fun hopen => hstate ?_⟩
  obtain ⟨hl, -⟩ := (digestOpen_eq_true e).1 hopen
  simp [hl]

theorem sameLive_refl (e : Engine) : e.SameLive e :=
  ⟨rfl, rfl, rfl, rfl, rfl, fun _ => rfl, fun _ => ⟨rfl, fun _ _ => rfl⟩⟩

theorem recordFault_sameLive (e f : Engine) (c : Cause) (h : e.SameLive f) : (e.recordFault c).SameLive (f.recordFault c) := by
  have ⟨hblen, hlc, hbusy, hfault, _, hlive⟩ := h
  cases he : e.fault with
  | true => rwa [recordFault_of_fault e c he, recordFault_of_fault f c (hfault ▸ he)]
  | false =>
    rw [recordFault_of_clear e c he, recordFault_of_clear f c (hfault ▸ he)]
    exact ⟨hblen, hlc, hbusy, rfl, rfl, hlive⟩

theorem setBusy_sameLive (e f : Engine) (busy : Bool) (h : e.SameLive f) :
    ({ e with busy := busy } : Engine).SameLive { f with busy := busy } := by
  obtain ⟨hblen, hlc, -, hfault, hfcause, hlive⟩ := h
  exact ⟨hblen, hlc, rfl, hfault, hfcause, hlive⟩

theorem doInit_sameLive (e f : Engine) (h : e.SameLive f) : (doInit e).SameLive (doInit f) := by
  obtain ⟨-, -, hbusy, -⟩ := h
  exact ⟨rfl, rfl, hbusy, rfl, rfl, fun _ => rfl, fun _ => ⟨rfl, fun _ hi => absurd hi (Nat.not_lt_zero _)⟩⟩

/-- While LC = ACTIVE the only stale elements are those of BUF at and above BLEN. -/
theorem eq_of_sameLive (e f : Engine) (h : e.SameLive f) (hl : e.lc = .active) :
    f = { e with buf := f.buf } ∧ ∀ i : Fin 16, i.val < e.blen.toNat → e.buf[i] = f.buf[i] := by
  obtain ⟨hblen, hlc, hbusy, hfault, hfcause, hstate, hlive⟩ := h
  obtain ⟨hcksum, hbuf⟩ := hlive hl
  refine ⟨?_, hbuf⟩
  rw [hblen, hlc, hbusy, hfault, hfcause, hcksum, hstate (by simp [hl])]

/-- Padding overwrites every stale element (R120). -/
theorem padBuffer_congr (buf buf' : DataReg) (blen : BitVec 4) (h : ∀ i : Fin 16, i.val < blen.toNat → buf[i] = buf'[i]) :
    padBuffer buf blen = padBuffer buf' blen := by
  apply Vector.ext
  intro i hi
  rw [padBuffer_get, padBuffer_get]
  split
  · next hlt => exact h ⟨i, hi⟩ hlt
  · rfl

/-- Staging overwrites the lowest stale element (R115). -/
theorem stageByte_congr (buf buf' : DataReg) (blen : BitVec 4) (b : Byte)
    (h : ∀ i : Fin 16, i.val < blen.toNat → buf[i] = buf'[i]) (i : Fin 16) (hi : i.val ≤ blen.toNat) :
    (stageByte buf blen b)[i] = (stageByte buf' blen b)[i] := by
  rw [Fin.getElem_fin, Fin.getElem_fin, stageByte_get, stageByte_get]
  split
  · rfl
  · exact h i (by omega)

/-- Two effects that are both none, or leave engines alike. -/
def SameEffect (r q : Option Engine) : Prop :=
  match r, q with
  | some e, some f => e.SameLive f
  | none, none => True
  | _, _ => False

theorem sameEffect_refl (r : Option Engine) : SameEffect r r := by
  cases r with
  | none => trivial
  | some e => exact sameLive_refl e

/-- FINAL reads no stale element: it pads over them first. -/
theorem doFinal_sameEffect (e f : Engine) (h : e.SameLive f) (hl : e.lc = .active) : SameEffect (doFinal e) (doFinal f) := by
  obtain ⟨hf, hbuf⟩ := eq_of_sameLive e f h hl
  have same_result : doFinal f = doFinal e := by
    rw [hf]
    unfold doFinal
    rw [padBuffer_congr e.buf f.buf e.blen hbuf]
  rw [same_result]
  exact sameEffect_refl _

/-- On the 16th byte no stale element is left; before it UPDATE reads none. -/
theorem doUpdate_sameEffect (b : Byte) (e f : Engine) (h : e.SameLive f) (hl : e.lc = .active) :
    SameEffect (doUpdate b e) (doUpdate b f) := by
  obtain ⟨hf, hbuf⟩ := eq_of_sameLive e f h hl
  by_cases hlast : e.blen = 15
  · have same_buf : stageByte e.buf e.blen b = stageByte f.buf e.blen b := by
      apply Vector.ext
      intro i hi
      exact stageByte_congr e.buf f.buf e.blen b hbuf ⟨i, hi⟩ (by simp only [hlast]; exact Nat.le_of_lt_succ hi)
    have same_result : doUpdate b f = doUpdate b e := by
      rw [hf]
      unfold doUpdate
      rw [same_buf]
    rw [same_result]
    exact sameEffect_refl _
  · have he' := (doUpdate_eq_some b e _).2 (.inl ⟨hlast, rfl⟩)
    have hf' := (doUpdate_eq_some b f _).2 (.inl ⟨by rw [hf]; exact hlast, rfl⟩)
    rw [he', hf', hf]
    refine ⟨rfl, rfl, rfl, rfl, rfl, fun _ => rfl, fun _ => ⟨rfl, fun i hi => ?_⟩⟩
    refine stageByte_congr e.buf f.buf e.blen b hbuf i ?_
    have hcount := blen_succ_toNat e.blen hlast
    change i.val < (e.blen + 1).toNat at hi
    omega

/-! ### Machines alike but for stale elements -/

/-- Inside WAITIDLE, with no poll left before it, comes the completion step (R102). -/
theorem waitIdleTurn_zero (s : State) :
    waitIdleTurn 0 s = if s.engine.busy then pushInput (complete s) (.waitIdle 0) else pollStatus 0 s := rfl

/-- Two outcomes that a host cannot tell apart: the same stop, or next states alike but for stale elements. -/
def SameOutcome (o p : Host.Outcome State Fault Refusal) : Prop :=
  match o, p with
  | .next s, .next t => s.SameLive t
  | .fault f, .fault g => f = g
  | .refused r, .refused q => r = q
  | _, _ => False

section
variable {s t : State} (h : s.SameLive t)
include h

theorem raiseFault_sameLive (c : Cause) : (raiseFault c s).SameLive (raiseFault c t) := by
  obtain ⟨hengine, hlog, hmessage, hreads, hinputs⟩ := h
  exact ⟨recordFault_sameLive _ _ c hengine, congrArg (· ++ [c]) hlog, hmessage, hreads, hinputs⟩

theorem complete_sameLive : (complete s).SameLive (complete t) := by
  obtain ⟨hengine, hbeside⟩ := h
  exact ⟨setBusy_sameLive _ _ false hengine, hbeside⟩

theorem resetEngine_sameLive : (resetEngine s).SameLive (resetEngine t) := by
  obtain ⟨-, hlog, -, hreads, hinputs⟩ := h
  exact ⟨sameLive_refl _, hlog, rfl, hreads, hinputs⟩

theorem recordRead_sameLive (v : Word) : (recordRead s v).SameLive (recordRead t v) := by
  obtain ⟨hengine, hlog, hmessage, hreads, hinputs⟩ := h
  exact ⟨hengine, hlog, hmessage, congrArg (· ++ [v]) hreads, hinputs⟩

theorem setInputs_sameLive (l : List Input) :
    ({ s with inputs := l } : State).SameLive { t with inputs := l } := by
  obtain ⟨hengine, hlog, hmessage, hreads, -⟩ := h
  exact ⟨hengine, hlog, hmessage, hreads, rfl⟩

theorem pushInput_sameLive (i : Input) : (pushInput s i).SameLive (pushInput t i) := by
  have ⟨_, _, _, _, hinputs⟩ := h
  unfold pushInput
  rw [← hinputs]
  exact setInputs_sameLive h _

theorem statusWord_sameLive : statusWord s.engine = statusWord t.engine :=
  statusWord_congr _ _ (sameView_of_sameLive _ _ h.1)

theorem busy_sameLive : s.engine.busy = t.engine.busy := by
  obtain ⟨⟨-, -, hbusy, -⟩, -⟩ := h
  exact hbusy

theorem engineTurn_sameLive : (engineTurn s).SameLive (engineTurn t) := by
  unfold engineTurn
  rw [← busy_sameLive h]
  split
  · exact complete_sameLive h
  · exact h

theorem pollStatus_sameLive (n : Nat) : (pollStatus n s).SameLive (pollStatus n t) := by
  rw [pollStatus_eq, pollStatus_eq, ← busy_sameLive h, ← statusWord_sameLive h]
  split
  · exact pushInput_sameLive (recordRead_sameLive h _) _
  · exact recordRead_sameLive h _

theorem waitIdleTurn_sameLive (n : Nat) : (waitIdleTurn n s).SameLive (waitIdleTurn n t) := by
  cases n with
  | zero =>
    rw [waitIdleTurn_zero, waitIdleTurn_zero, ← busy_sameLive h]
    split
    · exact pushInput_sameLive (complete_sameLive h) _
    · exact pollStatus_sameLive h 0
  | succ n => exact pollStatus_sameLive h n

theorem accept_sameOutcome (r q : Option Engine) (m : List Byte) (hr : SameEffect r q) :
    SameOutcome (accept s r m) (accept t q m) := by
  obtain ⟨-, hlog, -, hreads, hinputs⟩ := h
  cases r with
  | none =>
    cases q with
    | none => rfl
    | some f => exact hr.elim
  | some e =>
    cases q with
    | none => exact hr.elim
    | some f => exact ⟨setBusy_sameLive e f true hr, hlog, rfl, hreads, hinputs⟩

theorem whenIdle_sameOutcome (k : State → Host.Outcome State Fault Refusal) (hk : SameOutcome (k s) (k t)) :
    SameOutcome (whenIdle s k) (whenIdle t k) := by
  unfold whenIdle
  rw [← busy_sameLive h]
  split
  · exact raiseFault_sameLive h .cmdWhileBusy
  · exact hk

/-- Only with LC = ACTIVE do UPDATE and FINAL get to their effects (R100). -/
theorem whenActive_sameOutcome (k : State → Host.Outcome State Fault Refusal)
    (hk : s.engine.lc = .active → SameOutcome (k s) (k t)) : SameOutcome (whenActive s k) (whenActive t k) := by
  have ⟨⟨_, hlc, _, hfault, _⟩, _⟩ := h
  unfold whenActive
  rw [← hfault, ← hlc]
  split
  · exact h
  · split
    · exact raiseFault_sameLive h .uninitUse
    · exact raiseFault_sameLive h .afterFinal
    · next hl => exact hk hl

theorem exec_sameOutcome (i : Instr) : SameOutcome (exec i s) (exec i t) := by
  have ⟨hengine, _, hmessage, _, _⟩ := h
  cases i with
  | init =>
    apply whenIdle_sameOutcome h
    exact accept_sameOutcome h _ _ [] (doInit_sameLive _ _ hengine)
  | update b =>
    apply whenIdle_sameOutcome h
    apply whenActive_sameOutcome h
    intro hl
    rw [← hmessage]
    exact accept_sameOutcome h _ _ _ (doUpdate_sameEffect b _ _ hengine hl)
  | final =>
    apply whenIdle_sameOutcome h
    apply whenActive_sameOutcome h
    intro hl
    rw [← hmessage]
    exact accept_sameOutcome h _ _ _ (doFinal_sameEffect _ _ hengine hl)

theorem writeCommand_sameOutcome (c : Word) : SameOutcome (writeCommand c s) (writeCommand c t) := by
  cases hd : decode c with
  | ok i =>
    rw [writeCommand_ok c i s hd, writeCommand_ok c i t hd]
    exact exec_sameOutcome h i
  | error e =>
    rw [writeCommand_error c e s hd, writeCommand_error c e t hd]
    exact whenIdle_sameOutcome h _ (raiseFault_sameLive h .illegalCmd)

theorem hostRead_sameOutcome (addr : BitVec 5) : SameOutcome (hostRead addr s) (hostRead addr t) := by
  unfold hostRead
  rw [← readWindow_congr _ _ (windowReg addr) (sameView_of_sameLive _ _ h.1)]
  split
  · exact recordRead_sameLive h _
  · rfl

theorem hostWrite_sameOutcome (addr : BitVec 5) (v : Word) : SameOutcome (hostWrite addr v s) (hostWrite addr v t) := by
  by_cases ha : windowReg addr = .cmd
  · rw [hostWrite_cmd addr v s ha, hostWrite_cmd addr v t ha]
    exact writeCommand_sameOutcome h v
  · rw [hostWrite_ignored addr v s ha, hostWrite_ignored addr v t ha]
    exact h

theorem takeInput_sameOutcome (i : Input) : SameOutcome (takeInput i s) (takeInput i t) := by
  cases i with
  | access a =>
    cases a with
    | read addr => exact hostRead_sameOutcome h addr
    | write addr v => exact hostWrite_sameOutcome h addr v
  | waitIdle n => exact waitIdleTurn_sameLive h n
  | engineTurn => exact engineTurn_sameLive h
  | reset => exact resetEngine_sameLive h
  | powerLoss => exact resetEngine_sameLive h
  | otherHost a => rfl
  | accessDuringReset a => rfl

theorem step_sameOutcome : SameOutcome (step s) (step t) := by
  have ⟨_, _, _, _, hinputs⟩ := h
  unfold step
  rw [← hinputs]
  split
  · exact engineTurn_sameLive h
  · next i rest _ => exact takeInput_sameOutcome (setInputs_sameLive h rest) i

end

/-- Settles O53: every operation takes machines alike to outcomes alike, because BUF is padded or filled before it is read. -/
theorem staleElementsInfluenceNothing : Obligations.StaleElementsInfluenceNothing := by
  unfold Obligations.StaleElementsInfluenceNothing
  intro s t h
  have same := step_sameOutcome h
  generalize step s = o at same
  generalize step t = p at same
  refine ⟨?_, ?_, ?_⟩
  · rintro s' rfl
    cases p with
    | next t' => exact ⟨t', rfl, same⟩
    | fault g => exact same.elim
    | refused q => exact same.elim
  · rintro f rfl
    cases p with
    | next t' => exact same.elim
    | fault g => exact congrArg Host.Outcome.fault same.symm
    | refused q => exact same.elim
  · rintro r rfl
    cases p with
    | next t' => exact same.elim
    | fault g => exact same.elim
    | refused q => exact congrArg Host.Outcome.refused same.symm

end Sys2Proof.Machine
end

section
/-! PROOFS. The outcome of a CMD write: the checks of R100 in their order (R205), what a discarded command leaves (R203, R204,
R206), and what an accepted one goes on to. -/

namespace Sys2Proof.Machine

/-! ### The checks of R100, one at a time -/

section
variable (s : State) (k : State → Host.Outcome State Fault Refusal)

theorem whenActive_fault (hf : s.engine.fault = true) : whenActive s k = .next s := by
  simp [whenActive, hf]

theorem whenActive_uninit (hf : s.engine.fault = false) (hl : s.engine.lc = .uninit) :
    whenActive s k = .next (raiseFault .uninitUse s) := by
  simp [whenActive, hf, hl]

theorem whenActive_finalized (hf : s.engine.fault = false) (hl : s.engine.lc = .finalized) :
    whenActive s k = .next (raiseFault .afterFinal s) := by
  simp [whenActive, hf, hl]

end

/-- UPDATE and FINAL, unlike INIT, pass the checks of `whenActive` (R100). -/
theorem exec_idle_whenActive (i : Instr) (s : State) (hi : i ≠ .init) (hb : s.engine.busy = false) :
    ∃ k : State → Host.Outcome State Fault Refusal, exec i s = whenActive s k := by
  cases i with
  | init => exact absurd rfl hi
  | update b =>
    exact ⟨fun s => accept s (doUpdate b s.engine) (s.message ++ [b]), by simp only [exec, execUpdate, whenIdle_idle s _ hb]⟩
  | final => exact ⟨fun s => accept s (doFinal s.engine) s.message, by simp only [exec, execFinal, whenIdle_idle s _ hb]⟩

section
variable (i : Instr) (s : State) (hi : i ≠ .init) (hb : s.engine.busy = false)
include hi hb

theorem exec_fault (hf : s.engine.fault = true) : exec i s = .next s := by
  obtain ⟨k, hk⟩ := exec_idle_whenActive i s hi hb
  rw [hk, whenActive_fault s k hf]

theorem exec_uninit (hf : s.engine.fault = false) (hl : s.engine.lc = .uninit) :
    exec i s = .next (raiseFault .uninitUse s) := by
  obtain ⟨k, hk⟩ := exec_idle_whenActive i s hi hb
  rw [hk, whenActive_uninit s k hf hl]

theorem exec_finalized (hf : s.engine.fault = false) (hl : s.engine.lc = .finalized) :
    exec i s = .next (raiseFault .afterFinal s) := by
  obtain ⟨k, hk⟩ := exec_idle_whenActive i s hi hb
  rw [hk, whenActive_finalized s k hf hl]

end

/-- A word that decodes to no command is discarded as illegal when the engine is idle (R85). -/
theorem writeCommand_illegal (c : Word) (s : State) (hb : s.engine.busy = false) (hd : ∀ i : Instr, decode c ≠ .ok i) :
    writeCommand c s = .next (raiseFault .illegalCmd s) := by
  cases hc : decode c with
  | ok i => exact absurd hc (hd i)
  | error e => rw [writeCommand_error c e s hc, discardIllegal, whenIdle_idle s _ hb]

/-- A command that passes the checks of R100 is accepted, if the registers hold what it reads. -/
theorem exec_accepts (i : Instr) (s : State) (hb : s.engine.busy = false)
    (hi : i = .init ∨ (s.engine.fault = false ∧ s.engine.lc = .active)) (hw : s.engine.Written) :
    ∃ e msg, exec i s = .next (accepted s e msg) := by
  obtain ⟨t, ht⟩ := exec_next_of_written i s hw
  obtain ⟨e, msg, rfl⟩ := exec_accepted i s t ht hb hi
  exact ⟨e, msg, ht⟩

/-- Settles O8: a step with a CMD write is `writeCommand`, and each clause is the check that decides there. -/
theorem firstApplicableCheckDecides : Obligations.FirstApplicableCheckDecides := by
  unfold Obligations.FirstApplicableCheckDecides
  intro s addr c rest hin ha s0
  rw [step_cmdWrite s addr c rest hin ha]
  refine ⟨writeCommand_busy c s0, writeCommand_illegal c s0, ?_, ?_, ?_, ?_⟩
  · intro i hb hd hi hf
    rw [writeCommand_ok c i s0 hd, exec_fault i s0 hi hb hf]
  · intro i hb hd hi hf hl
    rw [writeCommand_ok c i s0 hd, exec_uninit i s0 hi hb hf hl]
  · intro i hb hd hi hf hl
    rw [writeCommand_ok c i s0 hd, exec_finalized i s0 hi hb hf hl]
  · intro i hb hd hi hw
    obtain ⟨e, msg, ht⟩ := exec_accepts i s0 hb hi hw
    exact ⟨_, (writeCommand_ok c i s0 hd).trans ht, rfl, rfl, rfl⟩

/-! ### What a discarded command leaves -/

/-- A discarded command is silent, with FAULT = 1 already, or records one cause (R202, R203). -/
theorem writeCommand_discarded (c : Word) (s : State)
    (h : s.engine.busy = true ∨ (∀ i : Instr, decode c ≠ .ok i) ∨
      (decode c ≠ .ok .init ∧ (s.engine.fault = true ∨ s.engine.lc ≠ .active))) :
    (s.engine.fault = true ∧ writeCommand c s = .next s) ∨ ∃ k : Cause, writeCommand c s = .next (raiseFault k s) := by
  cases hb : s.engine.busy with
  | true => exact .inr ⟨_, writeCommand_busy c s hb⟩
  | false =>
    cases hd : decode c with
    | error e => exact .inr ⟨_, writeCommand_illegal c s hb (by simp [hd])⟩
    | ok i =>
      rw [writeCommand_ok c i s hd]
      have ⟨hinit, hcheck⟩ : i ≠ .init ∧ (s.engine.fault = true ∨ s.engine.lc ≠ .active) := by simpa [hb, hd] using h
      cases hf : s.engine.fault with
      | true => exact .inl ⟨rfl, exec_fault i s hinit hb hf⟩
      | false =>
        cases hl : s.engine.lc with
        | uninit => exact .inr ⟨_, exec_uninit i s hinit hb hf hl⟩
        | active => simp [hf, hl] at hcheck
        | finalized => exact .inr ⟨_, exec_finalized i s hinit hb hf hl⟩

/-- Settles O10: either nothing changes, or what changes is what `raiseFault` writes. -/
theorem discardedCommandWritesNothing : Obligations.DiscardedCommandWritesNothing := by
  unfold Obligations.DiscardedCommandWritesNothing
  intro s addr c rest hin ha h
  rw [step_cmdWrite s addr c rest hin ha]
  rcases writeCommand_discarded c { s with inputs := rest } h with ⟨hf, ht⟩ | ⟨k, ht⟩
  · replace hf : s.engine.fault = true := hf
    exact ⟨_, ht, rfl, rfl, rfl, rfl, rfl, rfl, rfl, rfl, rfl, fun _ => ⟨hf, rfl⟩, fun hclear => by simp [hf] at hclear⟩
  · refine ⟨_, ht, ?_⟩
    simp only [raiseFault_engine, raiseFault_faultLog, raiseFault_message, raiseFault_reads, raiseFault_inputs,
      recordFault_state, recordFault_cksum, recordFault_buf, recordFault_blen, recordFault_lc, recordFault_busy,
      recordFault_fault, true_and]
    constructor
    · intro hf
      rw [recordFault_of_fault s.engine k hf]
    · intro hf
      exact ⟨k, by rw [recordFault_of_clear s.engine k hf], rfl⟩

/-- With FAULT = 1 UPDATE and FINAL leave the engine, and the machine as well when it is idle (R204). -/
theorem exec_poisoned (i : Instr) (s : State) (hi : i ≠ .init) (hf : s.engine.fault = true) :
    ∃ t : State, exec i s = .next t ∧ t.engine = s.engine ∧ (s.engine.busy = false → t = s) := by
  cases hb : s.engine.busy with
  | true => exact ⟨_, exec_busy i s hb, recordFault_of_fault s.engine _ hf, nofun⟩
  | false => exact ⟨s, exec_fault i s hi hb hf, rfl, fun _ => rfl⟩

/-- Settles O11: INIT and reset end in another lifecycle state, and no FINAL is accepted with FAULT = 1. -/
theorem poisonedHashNeverFinalizes : Obligations.PoisonedHashNeverFinalizes := by
  unfold Obligations.PoisonedHashNeverFinalizes
  refine ⟨exec_poisoned, fun s t h hs hl => ?_⟩
  rcases step_engine_cases s t h with ⟨he, -⟩ | ⟨-, he, -⟩ | ⟨-, he, -⟩ | ⟨_, c, -, he, -⟩ | ⟨_, -, -, -, he, -⟩ |
    ⟨_, _, _, -, -, -, hf, -⟩ | ⟨_, _, -, -, -, hf, -⟩
  · rw [he] at hl ⊢
    exact ⟨hl, hs, rfl⟩
  · rw [he] at hl ⊢
    exact ⟨hl, hs, rfl⟩
  · simp [he] at hl
  · rw [recordFault_of_fault s.engine c hs] at he
    rw [he] at hl ⊢
    exact ⟨hl, hs, rfl⟩
  · simp [he] at hl
  · simp [hs] at hf
  · simp [hs] at hf

/-- A DIGEST word depends on STATE, LC and BUSY only; FAULT does not gate it (R56). -/
theorem readWindow_digest_congr (e f : Engine) (n : Fin 4) (hstate : e.state = f.state) (hlc : e.lc = f.lc)
    (hbusy : e.busy = f.busy) : readWindow e (.digest n) = readWindow f (.digest n) := by
  simp only [readWindow, digestOpen_congr e f hlc hbusy, hstate]

/-- Settles O26: the discard writes FAULT and FCAUSE, which no DIGEST word shows. -/
theorem afterFinalTheDigestStays : Obligations.AfterFinalTheDigestStays := by
  unfold Obligations.AfterFinalTheDigestStays
  intro i s hi hb hf hl
  refine ⟨_, exec_finalized i s hi hb hf hl, recordFault_of_clear s.engine _ hf, rfl, fun n => ?_⟩
  exact readWindow_digest_congr _ _ n (recordFault_state _ _) (recordFault_lc _ _) (recordFault_busy _ _)

end Sys2Proof.Machine
end

section
/-! PROOFS. Who writes what: the only writers of FAULT (R27), of LC (R25), of STATE and CKSUM (R21, R22), and of the engine as
a whole (R55). -/

namespace Sys2Proof.Machine

/-- A decoded CMD write is a write of the command's own word (R83). -/
theorem inputs_of_nextIsCmdWrite (s : State) (v : Word) (i : Instr) (hw : nextIsCmdWrite s v) (hd : decode v = .ok i) :
    ∃ (addr : BitVec 5) (rest : List Input), windowReg addr = .cmd ∧ s.inputs = .access (.write addr (encode i)) :: rest := by
  obtain ⟨addr, rest, hin, ha⟩ := hw
  rw [(decode_eq_ok_iff_encode v i).1 hd] at hin
  exact ⟨addr, rest, ha, hin⟩

/-- Settles O13: every other change of the engine leaves FAULT or clears it. -/
theorem onlyADiscardedCommandSetsFault : Obligations.OnlyADiscardedCommandSetsFault := by
  unfold Obligations.OnlyADiscardedCommandSetsFault
  intro s t h hs ht
  rcases step_engine_cases s t h with ⟨he, -⟩ | ⟨-, he, -⟩ | ⟨-, he, -⟩ | ⟨v, c, ⟨addr, rest, hin, ha⟩, he, hlog, -⟩ |
    ⟨_, -, -, -, he, -⟩ | ⟨_, b, e, -, -, -, -, -, hu, he, -⟩ | ⟨_, e, -, -, -, -, -, hu, he, -⟩
  · simp [he, hs] at ht
  · simp [he, hs] at ht
  · simp [he] at ht
  · rw [recordFault_of_clear s.engine c hs] at he
    exact ⟨addr, v, rest, c, ha, hin, he, hlog⟩
  · simp [he] at ht
  · obtain ⟨-, hfault, -⟩ := doUpdate_keeps b s.engine e hu
    simp [he, hfault, hs] at ht
  · obtain ⟨-, -, hfault, -⟩ := doFinal_keeps s.engine e hu
    simp [he, hfault, hs] at ht

/-- A step that changes LC is INIT, FINAL or reset, and leaves it at that event's value (R25). -/
theorem step_changes_lc (s t : State) (h : step s = .next t) (hne : t.engine.lc ≠ s.engine.lc) :
    (t.engine.lc = .active ∧ ∃ (addr : BitVec 5) (rest : List Input), windowReg addr = .cmd ∧
        s.inputs = .access (.write addr (encode .init)) :: rest) ∨
    (t.engine.lc = .finalized ∧ s.engine.lc = .active ∧ ∃ (addr : BitVec 5) (rest : List Input), windowReg addr = .cmd ∧
        s.inputs = .access (.write addr (encode .final)) :: rest) ∨
    (t.engine.lc = .uninit ∧ ∃ rest : List Input, s.inputs = .reset :: rest ∨ s.inputs = .powerLoss :: rest) := by
  rcases step_engine_cases s t h with ⟨he, -⟩ | ⟨-, he, -⟩ | ⟨hreset, he, -⟩ | ⟨_, c, -, he, -⟩ | ⟨v, hw, hd, -, he, -⟩ |
    ⟨_, b, e, -, -, -, -, -, hu, he, -⟩ | ⟨v, e, hw, hd, -, -, hl, hu, he, -⟩ <;> rw [he] at hne ⊢
  · exact absurd rfl hne
  · exact absurd rfl hne
  · exact .inr (.inr ⟨reset_lc, hreset⟩)
  · exact absurd (recordFault_lc s.engine c) hne
  · exact .inl ⟨doInit_lc s.engine, inputs_of_nextIsCmdWrite s v .init hw hd⟩
  · obtain ⟨hlc, -⟩ := doUpdate_keeps b s.engine e hu
    exact absurd hlc hne
  · obtain ⟨hlc, -⟩ := doFinal_keeps s.engine e hu
    exact .inr (.inl ⟨hlc, hl, inputs_of_nextIsCmdWrite s v .final hw hd⟩)

/-- The reserved code of LC is no state's (U12). -/
theorem lifecycle_code_ne (l : Lifecycle) : l.code ≠ 0b11 := by
  cases l <;> decide

/-- Settles O14: the writers of LC are those of `step_changes_lc`, and the codes are computed. -/
theorem onlyInitFinalAndResetWriteLifecycle : Obligations.OnlyInitFinalAndResetWriteLifecycle := by
  unfold Obligations.OnlyInitFinalAndResetWriteLifecycle
  exact ⟨step_changes_lc, rfl, rfl, rfl, lifecycle_code_ne⟩

/-- Settles O15: UPDATE changes STATE or CKSUM only through its transform, and FINAL through its two. -/
theorem stateAndChecksumHaveTwoWriters : Obligations.StateAndChecksumHaveTwoWriters := by
  unfold Obligations.StateAndChecksumHaveTwoWriters
  intro s t h hne
  have unchanged : ∀ {p : Prop}, t.engine.state = s.engine.state → t.engine.cksum = s.engine.cksum → p :=
    fun hstate hcksum => (hne.elim (· hstate) (· hcksum)).elim
  rcases step_engine_cases s t h with ⟨he, -⟩ | ⟨-, he, -⟩ | ⟨hreset, -⟩ | ⟨_, c, -, he, -⟩ | ⟨v, hw, hd, -, he, -⟩ |
    ⟨v, b, e, hw, hd, -, -, -, hu, he, -⟩ | ⟨v, e, hw, hd, -, -, -, hu, he, -⟩
  · exact unchanged (by rw [he]) (by rw [he])
  · exact unchanged (by rw [he]) (by rw [he])
  · exact .inl hreset
  · exact unchanged (by rw [he, recordFault_state]) (by rw [he, recordFault_cksum])
  · obtain ⟨addr, rest, ha, hin⟩ := inputs_of_nextIsCmdWrite s v .init hw hd
    exact .inr ⟨addr, .init, rest, ha, hin, .inl ⟨rfl, by rw [he]; rfl, by rw [he]; rfl⟩⟩
  · rcases (doUpdate_eq_some b s.engine e).1 hu with ⟨-, rfl⟩ | ⟨hlast, x, ck, m, hx, hck, -, rfl⟩
    · exact unchanged (by rw [he]) (by rw [he])
    · obtain ⟨addr, rest, ha, hin⟩ := inputs_of_nextIsCmdWrite s v (.update b) hw hd
      refine .inr ⟨addr, .update b, rest, ha, hin, .inr (.inl ⟨b, x, ck, m, rfl, hlast, hx, hck, ?_⟩)⟩
      rw [he]
      exact ⟨rfl, rfl, rfl⟩
  · obtain ⟨x, ck, m, hx, hck, -, rfl⟩ := (doFinal_eq_some s.engine e).1 hu
    obtain ⟨addr, rest, ha, hin⟩ := inputs_of_nextIsCmdWrite s v .final hw hd
    refine .inr ⟨addr, .final, rest, ha, hin, .inr (.inr ⟨x, ck, m, rfl, hx, hck, ?_⟩)⟩
    rw [he]
    exact ⟨rfl, rfl, rfl⟩

/-- Settles O37: of the changes a step can make to the engine, all but the first two are a CMD write or a reset. -/
theorem onlyCommandWritesChangeTheEngine : Obligations.OnlyCommandWritesChangeTheEngine := by
  unfold Obligations.OnlyCommandWritesChangeTheEngine
  intro s t h hwrite hreset
  have not_cmdWrite : ∀ v, ¬ nextIsCmdWrite s v := fun v ⟨addr, rest, hin, ha⟩ => hwrite addr v rest ha hin
  rcases step_engine_cases s t h with ⟨he, hlog, hm⟩ | ⟨hb, he, hlog, hm⟩ | ⟨⟨rest, hin⟩, -⟩ | ⟨v, _, hw, -⟩ | ⟨v, hw, -⟩ |
    ⟨v, _, _, hw, -⟩ | ⟨v, _, hw, -⟩
  · exact ⟨hlog, hm, .inl he⟩
  · exact ⟨hlog, hm, .inr ⟨hb, he⟩⟩
  · obtain ⟨not_reset, not_powerLoss⟩ := hreset rest
    exact absurd hin (not_or.2 ⟨not_reset, not_powerLoss⟩)
  · exact absurd hw (not_cmdWrite v)
  · exact absurd hw (not_cmdWrite v)
  · exact absurd hw (not_cmdWrite v)
  · exact absurd hw (not_cmdWrite v)

end Sys2Proof.Machine
end

section
/-! PROOFS. The three commands (41_engine_commands.md): what an accepted one does to the whole state, and what each leaves
unchanged. -/

namespace Sys2Proof.Machine

/-! ### INIT (R110, R111) -/

/-- Settles O17: INIT has no check but that of BUSY, and its effect reads no register but BUF, which it keeps. -/
theorem initStartsANewHash : Obligations.InitStartsANewHash := by
  unfold Obligations.InitStartsANewHash
  intro s
  exact ⟨execInit_idle s, exec_busy .init s⟩

/-- Settles O21: an accepted INIT is `doInit`, and a discarded one records a fault. -/
theorem initFrame : Obligations.InitFrame := by
  unfold Obligations.InitFrame
  intro s t h
  rcases (execInit_next s t).1 h with ⟨hb, rfl⟩ | ⟨hb, rfl⟩
  · refine ⟨recordFault_buf _ _, rfl, rfl, fun hidle => by simp [hb] at hidle, fun _ => ⟨recordFault_state _ _,
      recordFault_cksum _ _, recordFault_blen _ _, recordFault_lc _ _, (recordFault_busy _ _).trans hb, rfl⟩⟩
  · exact ⟨rfl, rfl, rfl, fun _ => rfl, fun hbusy => by simp [hb] at hbusy⟩

/-- Settles O25: what `doInit` writes does not depend on the registers it writes, and LC = ACTIVE closes the view. -/
theorem initTwiceIsInitOnce : Obligations.InitTwiceIsInitOnce := by
  unfold Obligations.InitTwiceIsInitOnce
  intro s t hb h
  obtain ⟨hbusy, -⟩ | ⟨-, rfl⟩ := (execInit_next s t).1 h
  · simp [hb] at hbusy
  · refine ⟨⟨_, execInit_idle (complete (accepted s (doInit s.engine) [])) rfl, rfl⟩, fun n => ⟨?_, ?_⟩⟩
    · exact readWindow_digest_closed _ n rfl
    · exact readWindow_digest_closed _ n rfl

/-! ### UPDATE (R115) -/

/-- With BUSY = 0, FAULT = 0 and LC = ACTIVE, UPDATE is accepted with what it does to the engine (R100). -/
theorem exec_update_accepted (b : Byte) (s : State) (e : Engine) (hb : s.engine.busy = false) (hf : s.engine.fault = false)
    (hl : s.engine.lc = .active) (hu : doUpdate b s.engine = some e) :
    exec (.update b) s = .next (accepted s e (s.message ++ [b])) := by
  rw [exec, execUpdate, whenIdle_idle s _ hb, whenActive_active s _ hf hl, hu, accept_some]

/-- Settles O18: below the 16th byte the effect is the staging of the byte. -/
theorem updateStagesOneByte : Obligations.UpdateStagesOneByte := by
  unfold Obligations.UpdateStagesOneByte
  intro s b hb hf hl hne
  refine ⟨stageByte s.engine.buf s.engine.blen b, fun i hi => ?_, fun i hi => ?_, ?_⟩
  · rw [Fin.getElem_fin, stageByte_get, if_pos hi]
  · rw [Fin.getElem_fin, stageByte_get, if_neg hi, Fin.getElem_fin]
  · exact exec_update_accepted b s _ hb hf hl ((doUpdate_eq_some b s.engine _).2 (.inl ⟨hne, rfl⟩))

/-- The 16th byte completes the block of the staged ones. -/
theorem stageByte_last (buf : DataReg) (m : Block) (hbuf : ∀ i : Fin 16, i.val < 15 → buf[i] = .byte m[i]) :
    stageByte buf 15 m[15] = ofBlock m := by
  apply Vector.ext
  intro i hi
  rw [stageByte_get, ofBlock_get]
  split
  · next h => subst h; rfl
  · next h =>
    change i ≠ 15 at h
    exact hbuf ⟨i, hi⟩ (by simp only; omega)

/-- Settles O19: the staged block is the given one, so the effect is its transform. -/
theorem updateTransformsAFullBlock : Obligations.UpdateTransformsAFullBlock := by
  unfold Obligations.UpdateTransformsAFullBlock
  rintro s b x ck m hb hf hl hlast hx hck rfl hbuf
  have hblock : stageByte s.engine.buf s.engine.blen m[15] = ofBlock m := by rw [hlast, stageByte_last _ m hbuf]
  exact exec_update_accepted m[15] s _ hb hf hl
    ((doUpdate_eq_some m[15] s.engine _).2 (.inr ⟨hlast, x, ck, m, hx, hck, hblock, rfl⟩))

/-- A command that needs LC = ACTIVE and goes on either is accepted, or is discarded: then it leaves the machine as it is or
records one cause (R100). -/
theorem whenIdleActive_outcome (s t : State) (r : State → Option Engine) (m : State → List Byte)
    (h : (whenIdle s fun s => whenActive s fun s => accept s (r s) (m s)) = .next t) :
    ((s.engine.busy = true ∨ s.engine.fault = true ∨ s.engine.lc ≠ .active) ∧ (t = s ∨ ∃ c, t = raiseFault c s)) ∨
    ((s.engine.busy = false ∧ s.engine.fault = false ∧ s.engine.lc = .active) ∧
      ∃ e, r s = some e ∧ t = accepted s e (m s)) := by
  rcases (whenIdleActive_next s t r m).1 h with ⟨hb, ht⟩ | ⟨-, hf, ht⟩ | ⟨-, -, hl, ht⟩ | ⟨-, -, hl, ht⟩ | ⟨hb, hf, hl, he⟩
  · exact .inl ⟨.inl hb, .inr ⟨_, ht⟩⟩
  · exact .inl ⟨.inr (.inl hf), .inl ht⟩
  · exact .inl ⟨.inr (.inr (by simp [hl])), .inr ⟨_, ht⟩⟩
  · exact .inl ⟨.inr (.inr (by simp [hl])), .inr ⟨_, ht⟩⟩
  · exact .inr ⟨⟨hb, hf, hl⟩, he⟩

/-- A discarded command writes no register but FAULT and FCAUSE, and no field beside the engine but the fault log (R203). -/
theorem discarded_keeps (s t : State) (h : t = s ∨ ∃ c, t = raiseFault c s) :
    (t.engine.state = s.engine.state ∧ t.engine.cksum = s.engine.cksum ∧ t.engine.buf = s.engine.buf ∧
      t.engine.blen = s.engine.blen ∧ t.engine.lc = s.engine.lc ∧ t.engine.busy = s.engine.busy) ∧
    t.reads = s.reads ∧ t.inputs = s.inputs ∧ t.message = s.message := by
  rcases h with rfl | ⟨c, rfl⟩
  · exact ⟨⟨rfl, rfl, rfl, rfl, rfl, rfl⟩, rfl, rfl, rfl⟩
  · simp

/-- UPDATE writes one element of BUF (R115). -/
theorem doUpdate_keeps_buf (b : Byte) (e e' : Engine) (hu : doUpdate b e = some e') (i : Fin 16)
    (hi : i.val ≠ e.blen.toNat) : e'.buf[i] = e.buf[i] := by
  have hbuf : e'.buf = stageByte e.buf e.blen b := by
    rcases (doUpdate_eq_some b e e').1 hu with ⟨-, rfl⟩ | ⟨-, x, ck, m, -, -, hm, rfl⟩
    · rfl
    · exact hm.symm
  rw [hbuf, Fin.getElem_fin, stageByte_get, if_neg hi, Fin.getElem_fin]

/-- UPDATE transforms only on the 16th byte (R115). -/
theorem doUpdate_keeps_blocks (b : Byte) (e e' : Engine) (hu : doUpdate b e = some e') (hne : e.blen ≠ 15) :
    e'.state = e.state ∧ e'.cksum = e.cksum := by
  rcases (doUpdate_eq_some b e e').1 hu with ⟨-, rfl⟩ | ⟨hlast, -⟩
  · exact ⟨rfl, rfl⟩
  · exact absurd hlast hne

/-- Settles O22: an accepted UPDATE keeps what `doUpdate` keeps, and a discarded one what every discarded command keeps. -/
theorem updateFrame : Obligations.UpdateFrame := by
  unfold Obligations.UpdateFrame
  intro b s t h
  rcases whenIdleActive_outcome s t (fun s => doUpdate b s.engine) (fun s => s.message ++ [b]) h with
    ⟨hwhy, ht⟩ | ⟨⟨hb, hf, hl⟩, e, hu, rfl⟩
  · obtain ⟨⟨hstate, hcksum, hbuf, hblen, hlc, hbusy⟩, hreads, hinputs, hmessage⟩ := discarded_keeps s t ht
    refine ⟨hlc, hreads, hinputs, fun i _ => by rw [hbuf], fun _ => ⟨hstate, hcksum⟩, fun hb hf hl => ?_,
      fun _ => ⟨hstate, hcksum, hbuf, hblen, hbusy, hmessage⟩⟩
    simp [hb, hf, hl] at hwhy
  · obtain ⟨hlc, hfault, hfcause⟩ := doUpdate_keeps b s.engine e hu
    refine ⟨hlc, rfl, rfl, doUpdate_keeps_buf b s.engine e hu, doUpdate_keeps_blocks b s.engine e hu,
      fun _ _ _ => ⟨hfault, hfcause, rfl⟩, fun hwhy => ?_⟩
    simp [hb, hf, hl] at hwhy

/-! ### FINAL (R120 to R123) -/

/-- With BUSY = 0, FAULT = 0 and LC = ACTIVE, FINAL is accepted with what it does to the engine (R100). -/
theorem exec_final_accepted (s : State) (e : Engine) (hb : s.engine.busy = false) (hf : s.engine.fault = false)
    (hl : s.engine.lc = .active) (hu : doFinal s.engine = some e) : exec .final s = .next (accepted s e s.message) := by
  rw [exec, execFinal, whenIdle_idle s _ hb, whenActive_active s _ hf hl, hu, accept_some]

/-- The padded buffer holds the block of the staged bytes and the pad bytes (R120, R121). -/
theorem padBuffer_eq_ofBlock (buf : DataReg) (blen : BitVec 4) (m : Block)
    (hstaged : ∀ i : Fin 16, i.val < blen.toNat → buf[i] = .byte m[i])
    (hpad : ∀ i : Fin 16, blen.toNat ≤ i.val → m[i] = BitVec.ofNat 8 (16 - blen.toNat)) : padBuffer buf blen = ofBlock m := by
  apply Vector.ext
  intro i hi
  rw [padBuffer_get, ofBlock_get]
  split
  · next h => exact hstaged ⟨i, hi⟩ h
  · next h => exact congrArg Elem.byte (hpad ⟨i, hi⟩ (Nat.le_of_not_lt h)).symm

/-- Settles O20: the padded block is the given one, and the second block is the checksum that its transform leaves. -/
theorem finalProducesTheDigest : Obligations.FinalProducesTheDigest := by
  unfold Obligations.FinalProducesTheDigest
  intro s x ck m hb hf hl hx hck hstaged hpad
  have hblock : padBuffer s.engine.buf s.engine.blen = ofBlock m := padBuffer_eq_ofBlock _ _ m hstaged hpad
  exact exec_final_accepted s _ hb hf hl ((doFinal_eq_some s.engine _).2 ⟨x, ck, m, hx, hck, hblock, rfl⟩)

/-- Settles O23: an accepted FINAL pads above the staged bytes, and a discarded one keeps what every discarded command
keeps. -/
theorem finalFrame : Obligations.FinalFrame := by
  unfold Obligations.FinalFrame
  intro s t h
  rcases whenIdleActive_outcome s t (fun s => doFinal s.engine) (fun s => s.message) h with
    ⟨hwhy, ht⟩ | ⟨⟨hb, hf, hl⟩, e, hu, rfl⟩
  · obtain ⟨⟨hstate, hcksum, hbuf, hblen, hlc, hbusy⟩, hreads, hinputs, hmessage⟩ := discarded_keeps s t ht
    refine ⟨hreads, hinputs, hmessage, fun i _ => by rw [hbuf], fun hb hf hl => ?_,
      fun _ => ⟨hstate, hcksum, hbuf, hblen, hlc, hbusy⟩⟩
    simp [hb, hf, hl] at hwhy
  · obtain ⟨-, -, hfault, hfcause⟩ := doFinal_keeps s.engine e hu
    refine ⟨rfl, rfl, rfl, fun i hi => ?_, fun _ _ _ => ⟨hfault, hfcause, rfl⟩, fun hwhy => ?_⟩
    · rw [accepted_buf, doFinal_buf s.engine e hu, Fin.getElem_fin, padBuffer_get, if_pos hi, Fin.getElem_fin]
    · simp [hb, hf, hl] at hwhy

end Sys2Proof.Machine
end

section
/-! PROOFS. The substitution table is a permutation (R151), and the two machines that fold and mix step by step, the in-place
fold (R123) and the reference sequencer (R152), give Fold and Mix. -/

namespace Sys2Proof.Machine

/-! ### The substitution table -/

/-- The set of the bytes of a list, as the bits of one number. -/
def byteSet (l : List Byte) : Nat := l.foldr (fun b set => 2 ^ b.toNat ||| set) 0

theorem testBit_byteSet (l : List Byte) (b : Byte) : (byteSet l).testBit b.toNat = true ↔ b ∈ l := by
  induction l with
  | nil => simp [byteSet]
  | cons a l ih =>
    change (2 ^ a.toNat ||| byteSet l).testBit b.toNat = true ↔ b ∈ a :: l
    rw [Nat.testBit_or, Bool.or_eq_true, ih, Nat.testBit_two_pow, decide_eq_true_iff, List.mem_cons, BitVec.toNat_inj, eq_comm]

/-- The finite check of R151: each of the 256 bytes is a value of S. -/
theorem byteSet_sbox : byteSet ((List.finRange 256).map fun i => sbox (BitVec.ofFin i)) = 2 ^ 256 - 1 := by
  decide +kernel

theorem sbox_surjective : Function.Surjective sbox := by
  intro b
  have hb : b ∈ (List.finRange 256).map fun i => sbox (BitVec.ofFin i) := by
    rw [← testBit_byteSet, byteSet_sbox, Nat.testBit_two_pow_sub_one]
    exact decide_eq_true b.isLt
  obtain ⟨i, -, hi⟩ := List.mem_map.1 hb
  exact ⟨BitVec.ofFin i, hi⟩

/-- Settles O28: S is surjective, so on the finite set of bytes it is injective as well. -/
theorem substitutionTableIsAPermutation : Obligations.SubstitutionTableIsAPermutation := by
  unfold Obligations.SubstitutionTableIsAPermutation
  intro b
  have sbox_injective : Function.Injective sbox := Finite.injective_iff_surjective.2 sbox_surjective
  obtain ⟨a, ha⟩ := sbox_surjective b
  exact ⟨a, ha, fun a' ha' => sbox_injective (ha'.trans ha.symm)⟩

/-! ### A fold under way -/

/-- The carry before fold step i: C[15] at first, then the byte written just before (R146). -/
def foldCarry (ck m : Block) (i : Nat) : Byte := (ck[15] :: (fold ck m).toList).getD i 0

/-- A fold of ck with m of which i steps are done: the elements below i of the register r are rewritten, and l is
the carry. -/
def FoldedTo (ck m : Block) (i : Nat) (r : Block) (l : Byte) : Prop :=
  (∀ k : Nat, (hk : k < 16) → r[k] = if k < i then (fold ck m)[k] else ck[k]) ∧ l = foldCarry ck m i

theorem foldedTo_zero (ck m : Block) : FoldedTo ck m 0 ck ck[15] :=
  ⟨fun _ _ => rfl, rfl⟩

theorem foldCarry_succ (ck m : Block) (i : Nat) (hi : i < 16) : foldCarry ck m (i + 1) = (fold ck m)[i] := by
  simp [foldCarry, List.getD_eq_getElem?_getD, hi]

/-- The byte that fold step i writes (R146). -/
theorem fold_get_carry (ck m : Block) (i : Nat) (hi : i < 16) :
    (fold ck m)[i] = ck[i] ^^^ sbox (m[i] ^^^ foldCarry ck m i) := by
  cases i with
  | zero => exact fold_first ck m
  | succ i => rw [foldCarry_succ ck m i (by omega), fold_next ck m i hi]

/-- One fold step, written as the machines write it. -/
theorem foldedTo_succ (ck m r : Block) (i : Nat) (l v : Byte) (hi : i < 16) (h : FoldedTo ck m i r l)
    (hv : v = r[i] ^^^ sbox (m[i] ^^^ l)) : FoldedTo ck m (i + 1) (r.set i v) v := by
  obtain ⟨hr, hl⟩ := h
  have hv' : v = (fold ck m)[i] := by
    rw [hv, hr i hi, if_neg (Nat.lt_irrefl i), hl, fold_get_carry ck m i hi]
  refine ⟨fun k hk => ?_, hv'.trans (foldCarry_succ ck m i hi).symm⟩
  rw [Vector.getElem_set]
  split
  · next heq =>
    subst heq
    rw [if_pos (Nat.lt_succ_self i), hv']
  · next hne =>
    rw [hr k hk]
    simp only [show k < i + 1 ↔ k < i by omega]

/-- After 16 steps the fold is done. -/
theorem eq_fold_of_foldedTo (ck m r : Block) (l : Byte) (h : FoldedTo ck m 16 r l) : r = fold ck m := by
  obtain ⟨hr, -⟩ := h
  apply Vector.ext
  intro k hk
  rw [hr k hk, if_pos hk]

/-! ### The in-place fold -/

/-- The element that an in-place fold step reads is not yet overwritten, so the block folded in is still ck (R123). -/
theorem foldInPlaceStep_foldedTo (ck : Block) (p : Block × Byte) (i : Fin 16) (h : FoldedTo ck ck i.val p.1 p.2) :
    FoldedTo ck ck (i.val + 1) (foldInPlaceStep p i).1 (foldInPlaceStep p i).2 := by
  have unread : p.1[i.val] = ck[i.val] := by rw [h.1 i.val i.isLt, if_neg (Nat.lt_irrefl i.val)]
  apply foldedTo_succ ck ck p.1 i.val p.2 _ i.isLt h
  simp only [Fin.getElem_fin, unread]

theorem foldInPlace_foldedTo (ck : Block) (n : Nat) (hn : n ≤ 16) :
    let p := ((List.finRange 16).take n).foldl foldInPlaceStep (ck, ck[15])
    FoldedTo ck ck n p.1 p.2 := by
  induction n with
  | zero => exact foldedTo_zero ck ck
  | succ n ih =>
    have hlt : n < (List.finRange 16).length := by simpa using hn
    rw [List.take_succ_eq_append_getElem hlt, List.foldl_append, List.getElem_finRange]
    exact foldInPlaceStep_foldedTo ck _ ⟨n, hn⟩ (ih (by omega))

/-- Settles O31: each in-place step is a step of the fold of the snapshot. -/
theorem inPlaceFoldEqualsSnapshotFold : Obligations.InPlaceFoldEqualsSnapshotFold := by
  unfold Obligations.InPlaceFoldEqualsSnapshotFold
  intro ck
  have all : (List.finRange 16).take 16 = List.finRange 16 := List.take_of_length_le (by simp)
  have h := foldInPlace_foldedTo ck 16 (Nat.le_refl 16)
  rw [all] at h
  exact eq_fold_of_foldedTo ck ck _ _ h

/-! ### The sequencer's place in its series of micro-steps (R152) -/

/-- How many micro-steps come before a micro-state. -/
def Micro.position (p : Micro) : Nat :=
  match p with
  | .load => 0
  | .mix j k => 1 + 49 * j.val + k.val
  | .round j => 1 + 49 * j.val + 48
  | .store => 883
  | .done => 884

/-- What MIX leaves in the sequencer, but for the next micro-state. -/
def Sequencer.mixed (s : Sequencer) (k : Fin 48) : Sequencer :=
  ({ s with w := s.w.set k (s.w[k] ^^^ sbox s.t), t := s.w[k] ^^^ sbox s.t } : Sequencer).doFold

theorem doMix_eq (s : Sequencer) (j : Fin 18) (k : Fin 48) :
    s.doMix j k = { s.mixed k with micro := if h : k.val + 1 < 48 then .mix j ⟨k.val + 1, h⟩ else .round j } := rfl

/-- Every micro-step before DONE moves on by one. -/
theorem position_microStep (s : Sequencer) (h : s.micro ≠ .done) :
    s.microStep.micro.position = s.micro.position + 1 := by
  unfold Sequencer.microStep
  split
  · next hm => simp [Sequencer.doLoad, hm, Micro.position]
  · next j k hm =>
    rw [doMix_eq, hm]
    simp only
    split
    · simp only [Micro.position]; omega
    · have := k.isLt
      simp only [Micro.position]; omega
  · next j hm =>
    simp only [Sequencer.doRound, hm]
    split
    · simp only [Micro.position, Fin.val_zero]; omega
    · have := j.isLt
      simp only [Micro.position]; omega
  · next hm => simp [Sequencer.doStore, hm, Micro.position]
  · next hm => exact absurd hm h

theorem Micro.position_done (p : Micro) : p.position = 884 ↔ p = .done := by
  cases p <;> simp [Micro.position] <;> omega

/-- The last micro-step of a run. -/
theorem sequencerRun_succ (n : Nat) : ∀ s : Sequencer, Sequencer.run (n + 1) s = (Sequencer.run n s).microStep := by
  induction n with
  | zero => intro s; rfl
  | succ n ih => intro s; exact ih s.microStep

/-- From LOAD, n micro-steps lead to position n. -/
theorem position_run (s : Sequencer) (h : s.micro = .load) (n : Nat) (hn : n ≤ 884) :
    (Sequencer.run n s).micro.position = n := by
  induction n with
  | zero => rw [Sequencer.run, h]; rfl
  | succ n ih =>
    have before := ih (by omega)
    rw [sequencerRun_succ, position_microStep, before]
    intro hdone
    rw [hdone, Micro.position] at before
    omega

/-! ### What the sequencer holds on its way -/

/-- The working buffer inside round j, with k of its bytes rewritten. -/
def roundByte (x m : Block) (j k i : Nat) : Byte :=
  if i < k then (beforeRound x m (j + 1)).1.getD i 0 else (beforeRound x m j).1.getD i 0

/-- The carry inside round j, with k of its bytes rewritten: the byte written just before (R142). -/
def roundCarry (x m : Block) (j k : Nat) : Byte :=
  if k = 0 then (beforeRound x m j).2 else (beforeRound x m (j + 1)).1.getD (k - 1) 0

/-- The sequencer is inside round j, with k of its bytes rewritten and i fold steps done. -/
structure Sequencer.InRound (x ck m : Block) (j k i : Nat) (s : Sequencer) : Prop where
  snap   : s.snap = m
  work   : ∀ n : Nat, (hn : n < 48) → s.w[n] = roundByte x m j k n
  carry  : s.t = roundCarry x m j k
  index  : s.i = i
  folded : FoldedTo ck m i s.cksum s.l

/-- What the sequencer holds in each micro-state, on the way from STATE x, CKSUM ck and the block m. -/
def Sequencer.OnTheWay (x ck m : Block) (s : Sequencer) : Prop :=
  match s.micro with
  | .load => s.state = x ∧ s.cksum = ck ∧ s.block = m
  | .mix j k => s.InRound x ck m j.val k.val (min 16 (48 * j.val + k.val))
  | .round j => s.InRound x ck m j.val 48 16
  | .store => s.InRound x ck m 18 0 16
  | .done => s.state = mix x m ∧ s.cksum = fold ck m

/-- LOAD builds the buffer of R141 and starts the fold. -/
theorem loadWork_get (x m : Block) (n : Nat) (hn : n < 48) : (loadWork x m)[n] = (beforeRound x m 0).1.getD n 0 := by
  obtain ⟨i, hi⟩ : ∃ i : Fin 16, i.val = n % 16 := ⟨⟨n % 16, by omega⟩, rfl⟩
  obtain ⟨first, second, third⟩ := beforeRound_zero_get x m i
  have hpart : n = i.val ∨ n = 16 + i.val ∨ n = 32 + i.val := by omega
  have hlt := i.isLt
  rcases hpart with rfl | rfl | rfl
  · rw [first]
    simp [loadWork]
  · rw [second]
    simp [loadWork, show 16 + i.val < 32 by omega]
  · rw [third]
    simp [loadWork, show ¬ 32 + i.val < 16 by omega]

theorem doLoad_inRound (x ck m : Block) (s : Sequencer) (hx : s.state = x) (hck : s.cksum = ck) (hm : s.block = m) :
    s.doLoad.InRound x ck m 0 0 0 := by
  subst hx hck hm
  exact ⟨rfl, loadWork_get s.state s.block, rfl, rfl, foldedTo_zero s.cksum s.block⟩

/-- Byte k of round j is XORed with S at the carry (R142). -/
theorem beforeRound_succ_get (x m : Block) (j k : Nat) (hk : k < 48) :
    (beforeRound x m (j + 1)).1.getD k 0 = (beforeRound x m j).1.getD k 0 ^^^ sbox (roundCarry x m j k) := by
  have hlen : (beforeRound x m j).1.length = 48 := beforeRound_length x m j
  cases k with
  | zero =>
    rw [beforeRound_succ]
    exact mixRound_first _ j (by omega)
  | succ k =>
    rw [roundCarry, if_neg (Nat.succ_ne_zero k), beforeRound_succ]
    exact mixRound_next _ j k (by omega)

/-- Rewriting byte k takes the buffer one byte further (R142). -/
theorem set_roundByte (x m : Block) (j k : Nat) (hk : k < 48) (w : Vector Byte 48)
    (hw : ∀ n : Nat, (hn : n < 48) → w[n] = roundByte x m j k n) (n : Nat) (hn : n < 48) :
    (w.set k ((beforeRound x m (j + 1)).1.getD k 0))[n] = roundByte x m j (k + 1) n := by
  rw [Vector.getElem_set]
  split
  · next heq =>
    subst heq
    exact (if_pos (Nat.lt_succ_self k)).symm
  · next hne =>
    rw [hw n hn]
    simp only [roundByte, show n < k + 1 ↔ n < k by omega]

section doFold
variable (s : Sequencer)

/-- The fold step of a MIX is one step of the fold, until none is left (R152). -/
theorem doFold_foldedTo (ck m : Block) (n : Nat) (hi : s.i = min 16 n) (hsnap : s.snap = m)
    (h : FoldedTo ck m (min 16 n) s.cksum s.l) :
    s.doFold.i = min 16 (n + 1) ∧ FoldedTo ck m (min 16 (n + 1)) s.doFold.cksum s.doFold.l := by
  subst hsnap
  rw [← hi] at h
  unfold Sequencer.doFold
  split
  · next hlt =>
    rw [show min 16 (n + 1) = s.i + 1 by omega]
    exact ⟨rfl, foldedTo_succ ck s.snap s.cksum s.i s.l _ hlt h rfl⟩
  · next hdone =>
    rw [show min 16 (n + 1) = s.i by omega]
    exact ⟨rfl, h⟩

theorem doFold_snap : s.doFold.snap = s.snap := by unfold Sequencer.doFold; split <;> rfl
theorem doFold_w : s.doFold.w = s.w := by unfold Sequencer.doFold; split <;> rfl
theorem doFold_t : s.doFold.t = s.t := by unfold Sequencer.doFold; split <;> rfl
end doFold

/-- MIX (j, k) takes the round one byte and the fold one step further (R152). -/
theorem mixed_inRound (x ck m : Block) (j : Nat) (k : Fin 48) (s : Sequencer)
    (h : s.InRound x ck m j k.val (min 16 (48 * j + k.val))) :
    (s.mixed k).InRound x ck m j (k.val + 1) (min 16 (48 * j + k.val + 1)) := by
  obtain ⟨hsnap, hwork, hcarry, hindex, hfolded⟩ := h
  have hbyte : s.w[k] ^^^ sbox s.t = (beforeRound x m (j + 1)).1.getD k.val 0 := by
    rw [beforeRound_succ_get x m j k.val k.isLt, hcarry, Fin.getElem_fin, hwork k.val k.isLt, roundByte,
      if_neg (Nat.lt_irrefl k.val)]
  unfold Sequencer.mixed
  rw [hbyte]
  obtain ⟨hindex', hfolded'⟩ := doFold_foldedTo
    { s with w := s.w.set k ((beforeRound x m (j + 1)).1.getD k.val 0), t := (beforeRound x m (j + 1)).1.getD k.val 0 }
    ck m (48 * j + k.val) hindex hsnap hfolded
  refine ⟨(doFold_snap _).trans hsnap, fun n hn => ?_, ?_, hindex', hfolded'⟩
  · simp only [doFold_w]
    exact set_roundByte x m j k.val k.isLt s.w hwork n hn
  · exact doFold_t _

/-- ROUND adds the round's index to the carry and so starts the next round (R142). -/
theorem doRound_inRound (x ck m : Block) (j : Fin 18) (s : Sequencer) (h : s.InRound x ck m j.val 48 16) :
    (s.doRound j).InRound x ck m (j.val + 1) 0 16 := by
  obtain ⟨hsnap, hwork, hcarry, hindex, hfolded⟩ := h
  refine ⟨hsnap, fun n hn => ?_, ?_, hindex, hfolded⟩
  · exact (hwork n hn).trans (if_pos hn)
  · have next_carry := mixRound_carry (beforeRound x m j.val) j.val 47 (beforeRound_length x m j.val)
    rw [← beforeRound_succ] at next_carry
    change s.t + BitVec.ofNat 8 j.val = (beforeRound x m (j.val + 1)).2
    rw [hcarry, next_carry]
    rfl

/-- STORE takes the first 16 bytes of the buffer after 18 rounds (R143). -/
theorem doStore_state (x ck m : Block) (s : Sequencer) (h : s.InRound x ck m 18 0 16) : s.doStore.state = mix x m := by
  apply Vector.ext
  intro i hi
  rw [mix_get x m i hi]
  exact (Vector.getElem_ofFn hi).trans (h.work i (by omega))

/-- `InRound` does not speak of the micro-state. -/
theorem inRound_setMicro (x ck m : Block) (j k i : Nat) (s : Sequencer) (p : Micro) (h : s.InRound x ck m j k i) :
    ({ s with micro := p } : Sequencer).InRound x ck m j k i :=
  ⟨h.snap, h.work, h.carry, h.index, h.folded⟩

/-- After a MIX comes the next byte of the round or, after its last byte, ROUND. -/
theorem doMix_onTheWay (x ck m : Block) (j : Fin 18) (k : Fin 48) (s : Sequencer)
    (h : s.InRound x ck m j.val k.val (min 16 (48 * j.val + k.val))) : (s.doMix j k).OnTheWay x ck m := by
  have mixed := mixed_inRound x ck m j.val k s h
  rw [doMix_eq]
  by_cases hk : k.val + 1 < 48
  · rw [dif_pos hk]
    exact inRound_setMicro x ck m _ _ _ _ _ mixed
  · rw [dif_neg hk]
    rw [show k.val + 1 = 48 by omega, show min 16 (48 * j.val + k.val + 1) = 16 by omega] at mixed
    exact inRound_setMicro x ck m _ _ _ _ _ mixed

/-- After a ROUND comes the next round or, after the last, STORE. -/
theorem doRound_onTheWay (x ck m : Block) (j : Fin 18) (s : Sequencer) (h : s.InRound x ck m j.val 48 16) :
    (s.doRound j).OnTheWay x ck m := by
  have started := doRound_inRound x ck m j s h
  unfold Sequencer.doRound at *
  by_cases hj : j.val + 1 < 18
  · rw [dif_pos hj] at *
    rw [show 16 = min 16 (48 * (j.val + 1) + 0) by omega] at started
    exact started
  · rw [dif_neg hj] at *
    rw [show j.val + 1 = 18 by omega] at started
    exact started

/-- Every micro-step leads from what one micro-state holds to what the next one holds. -/
theorem microStep_onTheWay (x ck m : Block) (s : Sequencer) (h : s.OnTheWay x ck m) : s.microStep.OnTheWay x ck m := by
  have unchanged := h
  unfold Sequencer.OnTheWay at h
  unfold Sequencer.microStep
  cases hm : s.micro with
  | load =>
    rw [hm] at h
    obtain ⟨hx, hck, hblock⟩ := h
    exact doLoad_inRound x ck m s hx hck hblock
  | mix j k =>
    rw [hm] at h
    exact doMix_onTheWay x ck m j k s h
  | round j =>
    rw [hm] at h
    exact doRound_onTheWay x ck m j s h
  | store =>
    rw [hm] at h
    exact ⟨doStore_state x ck m s h, eq_fold_of_foldedTo ck m s.cksum s.l h.folded⟩
  | done => exact unchanged

theorem run_onTheWay (x ck m : Block) (n : Nat) :
    ∀ s : Sequencer, s.OnTheWay x ck m → (Sequencer.run n s).OnTheWay x ck m := by
  induction n with
  | zero => exact fun _ h => h
  | succ n ih => exact fun s h => ih s.microStep (microStep_onTheWay x ck m s h)

theorem onTheWay_load (s : Sequencer) (hm : s.micro = .load) : s.OnTheWay s.state s.cksum s.block := by
  unfold Sequencer.OnTheWay
  rw [hm]
  exact ⟨rfl, rfl, rfl⟩

theorem onTheWay_done (x ck m : Block) (s : Sequencer) (hm : s.micro = .done) (h : s.OnTheWay x ck m) :
    s.state = mix x m ∧ s.cksum = fold ck m := by
  unfold Sequencer.OnTheWay at h
  rwa [hm] at h

/-- A run from LOAD that has come to DONE has computed the transform. -/
theorem run_done (s : Sequencer) (hload : s.micro = .load) (n : Nat) (hdone : (Sequencer.run n s).micro = .done) :
    (Sequencer.run n s).state = mix s.state s.block ∧ (Sequencer.run n s).cksum = fold s.cksum s.block :=
  onTheWay_done s.state s.cksum s.block _ hdone (run_onTheWay s.state s.cksum s.block n s (onTheWay_load s hload))

/-- Settles O32: the 884 micro-steps are counted by their positions, and what DONE holds is the transform. -/
theorem sequencerComputesTheTransform : Obligations.SequencerComputesTheTransform := by
  unfold Obligations.SequencerComputesTheTransform
  have count : microStepsPerTransform = 884 := rfl
  intro s hload
  rw [count]
  refine ⟨fun n hn hdone => ?_, ?_⟩
  · have hpos := position_run s hload n (by omega)
    rw [hdone, Micro.position] at hpos
    omega
  · have hdone : (Sequencer.run 884 s).micro = .done :=
      (Micro.position_done _).1 (position_run s hload 884 (by omega))
    obtain ⟨hstate, hcksum⟩ := run_done s hload 884 hdone
    exact ⟨hdone, hstate, hcksum, rfl⟩

end Sys2Proof.Machine
end

section
/-! PROOFS. A platform of engines (R50, R51, R222): each step and each bus access is that of one engine. -/

namespace Sys2Proof.Machine

/-- A step of one engine is a step of its machine and touches no other (R222). -/
theorem stepAt_next {n : Nat} (p q : Platform n) (k : Fin n) (h : p.stepAt k = .next q) :
    step p.machines[k] = .next q.machines[k] ∧ ∀ j : Fin n, j ≠ k → q.machines[j] = p.machines[j] := by
  unfold Platform.stepAt at h
  cases hs : step p.machines[k] with
  | next s =>
    rw [hs] at h
    cases h
    refine ⟨?_, fun j hj => ?_⟩
    · simp
    · exact Vector.getElem_set_ne k.isLt j.isLt fun heq => hj (Fin.ext heq.symm)
  | fault f => rw [hs] at h; cases h
  | refused r => rw [hs] at h; cases h

/-- Settles O46: `stepAt` writes back one machine, its own. -/
theorem enginesOfAPlatformAreIsolated : Obligations.EnginesOfAPlatformAreIsolated := by
  unfold Obligations.EnginesOfAPlatformAreIsolated
  exact fun _ => stepAt_next

/-- ENGINE_BASE is aligned to the window (R51). -/
theorem engineBase_aligned (k : Nat) : Config.engineBase k % 32 = 0 := Nat.mul_mod_right 32 _

/-- A bus access in the window of an engine is that engine's, at the offset (R50, R51). -/
theorem busAccess_window {n : Nat} (p : Platform n) (k : Fin n) (off : BitVec 5) (a : BitVec 5 → HostAccess) :
    p.busAccess (busAddress k.val off) a = p.accessAt k (a off) := by
  unfold Platform.busAccess
  rw [reached_busAddress, windowAddress_busAddress]

/-- An access of one engine is the next step of its machine and touches no other (R66, R222). -/
theorem accessAt_next {n : Nat} (p q : Platform n) (k : Fin n) (a : HostAccess) (h : p.accessAt k a = .next q) :
    step { p.machines[k] with inputs := .access a :: p.machines[k].inputs } = .next q.machines[k] ∧
      ∀ j : Fin n, j ≠ k → q.machines[j] = p.machines[j] := by
  obtain ⟨hstep, hothers⟩ := stepAt_next _ q k h
  have at_k : (p.machines.set k (pushInput p.machines[k] (.access a)))[k] = pushInput p.machines[k] (.access a) := by
    simp
  refine ⟨?_, fun j hj => (hothers j hj).trans ?_⟩
  · rw [← hstep]
    exact congrArg step at_k.symm
  · exact Vector.getElem_set_ne k.isLt j.isLt fun heq => hj (Fin.ext heq.symm)

/-- A bus access in no window is refused. -/
theorem busAccess_outside {n : Nat} (p : Platform n) (addr : Nat) (a : BitVec 5 → HostAccess)
    (h : ∀ k : Fin n, inWindow k.val addr = false) : p.busAccess addr a = .refused .outsideWindow := by
  unfold Platform.busAccess
  rw [(reached_eq_none n addr).2 h]

/-- Settles O47: the window that holds the address is found first, and the access is then that engine's. -/
theorem busAddressReachesItsWindow : Obligations.BusAddressReachesItsWindow := by
  unfold Obligations.BusAddressReachesItsWindow
  refine ⟨fun k off => ⟨engineBase_aligned k, windowAddress_busAddress k off, fun j => ?_⟩, fun n p k off => ⟨?_, fun v => ?_⟩,
    fun n p k a q h => accessAt_next p q k a h, fun n p addr h => ⟨?_, fun v => ?_⟩⟩
  · rw [inWindow_busAddress, decide_eq_true_iff]
  · exact busAccess_window p k off .read
  · exact busAccess_window p k off fun off => .write off v
  · exact busAccess_outside p addr _ h
  · exact busAccess_outside p addr _ h

end Sys2Proof.Machine
end

section
/-! PROOFS. The busy period: its completion step (R102), its end (R103, R250), the host's WAITIDLE (R89) and the host that waits
(R245); and the runs outside the spec. -/

namespace Sys2Proof.Machine

/-! ### Single turns -/

section
variable (s : State) (rest : List Input)

theorem step_engineTurn_idle (hin : s.inputs = .engineTurn :: rest) (hb : s.engine.busy = false) :
    step s = .next { s with inputs := rest } := by
  simp [step_cons s _ rest hin, takeInput, engineTurn, hb]

/-- WAITIDLE on an idle engine is one STATUS read (R89). -/
theorem step_waitIdle_idle (n : Nat) (hin : s.inputs = .waitIdle n :: rest) (hb : s.engine.busy = false) :
    step s = .next (recordRead { s with inputs := rest } (statusWord s.engine)) := by
  rw [step_cons s _ rest hin]
  rcases waitIdleTurn_cases n { s with inputs := rest } with ⟨-, ht⟩ | ⟨hbusy, -⟩ | ⟨hbusy, -⟩
  · exact congrArg Host.Outcome.next ht
  · simp [hb] at hbusy
  · simp [hb] at hbusy

/-- With no poll left before it, the completion step comes inside WAITIDLE (R102). -/
theorem step_waitIdle_complete (hin : s.inputs = .waitIdle 0 :: rest) (hb : s.engine.busy = true) :
    step s = .next (complete s) := by
  rw [step_cons s _ rest hin]
  change Host.Outcome.next (waitIdleTurn 0 { s with inputs := rest }) = _
  rw [waitIdleTurn_zero, if_pos hb]
  simp [pushInput, complete, hin]

/-- A poll that sees BUSY = 1 goes round again (R89). -/
theorem step_waitIdle_poll (n : Nat) (hin : s.inputs = .waitIdle (n + 1) :: rest) (hb : s.engine.busy = true) :
    step s = .next (pushInput (recordRead { s with inputs := rest } (statusWord s.engine)) (.waitIdle n)) := by
  rw [step_cons s _ rest hin]
  rcases waitIdleTurn_cases (n + 1) { s with inputs := rest } with ⟨hidle, -⟩ | ⟨-, hn, -⟩ | ⟨-, k, hn, ht⟩
  · simp [hb] at hidle
  · cases hn
  · cases hn
    exact congrArg Host.Outcome.next ht

end

/-- Settles O41: the engine's turn, from the list or once it is empty, is `engineTurn`; a reset leaves BUSY = 0. -/
theorem completionStepOnlyClearsBusy : Obligations.CompletionStepOnlyClearsBusy := by
  unfold Obligations.CompletionStepOnlyClearsBusy
  refine ⟨fun s rest hin => ⟨step_engineTurn_busy s rest hin, step_engineTurn_idle s rest hin⟩, fun s hin => ?_,
    fun s rest hin => ⟨_, step_reset s rest (.inl hin), rfl⟩⟩
  rw [step_nil s hin]
  constructor
  · intro hb
    simp [engineTurn, hb, complete]
  · intro hb
    simp [engineTurn, hb]

/-- Settles O45: these turns have no next state. -/
theorem runsOutsideTheSpecAreRefused : Obligations.RunsOutsideTheSpecAreRefused := by
  unfold Obligations.RunsOutsideTheSpecAreRefused
  exact fun s a rest => ⟨step_cons s (.otherHost a) rest, step_cons s (.accessDuringReset a) rest⟩

/-! ### WAITIDLE -/

/-- The state after a WAITIDLE of a busy engine: the words polled before the completion step, and the one behind it. -/
def afterWaitIdle (s : State) (n : Nat) (rest : List Input) : State :=
  { s with
    engine := { s.engine with busy := false }
    reads := s.reads ++ List.replicate n (statusWord s.engine) ++ [statusWord { s.engine with busy := false }]
    inputs := rest }

theorem afterWaitIdle_poll (s : State) (n : Nat) (rest rest' : List Input) :
    afterWaitIdle (pushInput (recordRead { s with inputs := rest' } (statusWord s.engine)) (.waitIdle n)) n rest =
      afterWaitIdle s (n + 1) rest := by
  simp [afterWaitIdle, pushInput, recordRead, List.replicate_succ]

/-- A WAITIDLE of a busy engine takes its polls, the completion step and one more poll (R89). -/
theorem runSteps_waitIdle (rest : List Input) (n : Nat) :
    ∀ s : State, s.inputs = .waitIdle n :: rest → s.engine.busy = true →
      runSteps (n + 2) s = .next (afterWaitIdle s n rest) := by
  induction n with
  | zero =>
    intro s hin hb
    rw [runSteps_succ 1 s _ (step_waitIdle_complete s rest hin hb),
      runSteps_succ 0 _ _ (step_waitIdle_idle (complete s) rest 0 hin rfl)]
    simp [afterWaitIdle, recordRead, complete]
  | succ n ih =>
    intro s hin hb
    have polled := ih (pushInput (recordRead { s with inputs := rest } (statusWord s.engine)) (.waitIdle n)) rfl hb
    rw [runSteps_succ (n + 2) s _ (step_waitIdle_poll s rest n hin hb), polled, afterWaitIdle_poll]

/-- Settles O43: the run of a busy engine is that of `runSteps_waitIdle`, and an idle engine is polled once. -/
theorem waitIdleReturnsIdle : Obligations.WaitIdleReturnsIdle := by
  unfold Obligations.WaitIdleReturnsIdle
  exact fun s n rest hin => ⟨runSteps_waitIdle rest n s hin, step_waitIdle_idle s rest n hin⟩

/-! ### Every busy period ends -/

/-- How many steps one turn can keep the engine busy for. -/
def turnBound (i : Input) : Nat :=
  match i with
  | .waitIdle n => n + 1
  | _ => 1

theorem turnBound_pos (i : Input) : 1 ≤ turnBound i := by
  cases i <;> simp [turnBound]

/-- A busy engine reads no element: commands are discarded and the DIGEST view is closed (R100, R56). -/
theorem hostAccess_busy (a : HostAccess) (s : State) (hb : s.engine.busy = true) :
    ∃ t, hostAccess a s = .next t ∧ t.inputs = s.inputs := by
  cases a with
  | read addr =>
    obtain ⟨v, hv⟩ := readWindow_some_of_closed s.engine (windowReg addr) (digestOpen_busy _ hb)
    exact ⟨_, hostRead_of_readWindow addr s v hv, rfl⟩
  | write addr v =>
    by_cases ha : windowReg addr = .cmd
    · exact ⟨_, (hostWrite_cmd addr v s ha).trans (writeCommand_busy v s hb), rfl⟩
    · exact ⟨s, hostWrite_ignored addr v s ha, rfl⟩

/-- A run that ends the busy period within the bound of the turn i, or uses that turn up and leaves the turns rest. -/
def TurnPasses (s : State) (i : Input) (rest : List Input) : Prop :=
  ∃ (k : Nat) (t : State), runSteps k s = .next t ∧
    ((k ≤ turnBound i + 1 ∧ t.engine.busy = false) ∨ (k = 1 ∧ t.engine.busy = true ∧ t.inputs = rest))

theorem turnPasses_of_step (s t : State) (i : Input) (rest : List Input) (h : step s = .next t) (hrest : t.inputs = rest) :
    TurnPasses s i rest := by
  refine ⟨1, t, runSteps_succ 0 s t h, ?_⟩
  cases hb : t.engine.busy with
  | false => exact .inl ⟨by omega, rfl⟩
  | true => exact .inr ⟨rfl, rfl, hrest⟩

/-- A turn of a busy engine passes, if it is none that leaves the spec. -/
theorem busy_turnPasses (s : State) (i : Input) (rest : List Input) (hin : s.inputs = i :: rest) (hb : s.engine.busy = true)
    (hspec : ∀ a : HostAccess, .otherHost a ≠ i ∧ .accessDuringReset a ≠ i) : TurnPasses s i rest := by
  cases i with
  | access a =>
    obtain ⟨t, ht, hrest⟩ := hostAccess_busy a { s with inputs := rest } hb
    exact turnPasses_of_step s t _ rest ((step_cons s _ rest hin).trans ht) hrest
  | waitIdle n => exact ⟨n + 2, _, runSteps_waitIdle rest n s hin hb, .inl ⟨Nat.le_refl _, rfl⟩⟩
  | engineTurn => exact turnPasses_of_step s _ _ rest (step_engineTurn_busy s rest hin hb) rfl
  | reset => exact turnPasses_of_step s _ _ rest (step_reset s rest (.inl hin)) rfl
  | powerLoss => exact turnPasses_of_step s _ _ rest (step_reset s rest (.inr hin)) rfl
  | otherHost a => exact absurd rfl (hspec a).1
  | accessDuringReset a => exact absurd rfl (hspec a).2

theorem busy_period_ends (l : List Input) :
    ∀ s : State, s.inputs = l → s.engine.busy = true →
      (∀ a : HostAccess, .otherHost a ∉ l ∧ .accessDuringReset a ∉ l) →
      ∃ (k : Nat) (t : State), k ≤ (l.map turnBound).sum + 1 ∧ runSteps k s = .next t ∧ t.engine.busy = false := by
  induction l with
  | nil =>
    intro s hin hb _
    exact ⟨1, engineTurn s, by simp, runSteps_succ 0 s _ (step_nil s hin), engineTurn_idle s⟩
  | cons i rest ih =>
    intro s hin hb hspec
    simp only [List.mem_cons, not_or] at hspec
    have hnow : ∀ a : HostAccess, .otherHost a ≠ i ∧ .accessDuringReset a ≠ i := fun a =>
      have ⟨⟨not_other, _⟩, ⟨not_during, _⟩⟩ := hspec a
      ⟨not_other, not_during⟩
    have hlater : ∀ a : HostAccess, .otherHost a ∉ rest ∧ .accessDuringReset a ∉ rest := fun a =>
      have ⟨⟨_, not_other⟩, ⟨_, not_during⟩⟩ := hspec a
      ⟨not_other, not_during⟩
    rw [List.map_cons, List.sum_cons]
    obtain ⟨k, t, hrun, ⟨hk, hidle⟩ | ⟨rfl, hbt, hrest⟩⟩ := busy_turnPasses s i rest hin hb hnow
    · exact ⟨k, t, by omega, hrun, hidle⟩
    · obtain ⟨k', u, hk', hrun', hidle⟩ := ih t hrest hbt hlater
      have hbound := turnBound_pos i
      exact ⟨1 + k', u, by omega, (runSteps_add 1 k' s t hrun).trans hrun', hidle⟩

/-- Settles O42: by induction on the turns still to come; the last of them is the engine's own. -/
theorem everyBusyPeriodEnds : Obligations.EveryBusyPeriodEnds := by
  unfold Obligations.EveryBusyPeriodEnds
  intro s hb hspec
  exact busy_period_ends s.inputs s rfl hb hspec

end Sys2Proof.Machine
end

section
/-! PROOFS. Hazard H1 (70_reset_and_hazards.md, section 3): a host that waits after every CMD write never meets a busy engine
(R245). -/

namespace Sys2Proof.Machine

/-! ### The turns of a host that waits -/

theorem spaced_cmdWrite (open_ : Bool) (addr : BitVec 5) (v : Word) (rest : List Input) (ha : windowReg addr = .cmd) :
    spaced open_ (.access (.write addr v) :: rest) = (!open_ && spaced true rest) := if_pos ha

theorem spaced_otherWrite (open_ : Bool) (addr : BitVec 5) (v : Word) (rest : List Input) (ha : windowReg addr ≠ .cmd) :
    spaced open_ (.access (.write addr v) :: rest) = spaced open_ rest := if_neg ha

/-- Turns that are spaced for a busy engine are so for an idle one. -/
theorem spaced_of_open (open_ : Bool) (l : List Input) (h : spaced true l = true) : spaced open_ l = true := by
  induction l with
  | nil => rfl
  | cons i rest ih =>
    cases i with
    | access a =>
      cases a with
      | read addr => exact ih h
      | write addr v =>
        by_cases ha : windowReg addr = .cmd
        · rw [spaced_cmdWrite true addr v rest ha] at h
          cases h
        · rw [spaced_otherWrite _ addr v rest ha] at h ⊢
          exact ih h
    | waitIdle n => exact h
    | engineTurn => exact ih h
    | reset => exact h
    | powerLoss => exact h
    | otherHost a => exact ih h
    | accessDuringReset a => exact ih h

/-- Closing the busy period keeps the turns spaced. -/
theorem spaced_closed (open_ : Bool) (l : List Input) (h : spaced open_ l = true) : spaced false l = true := by
  cases open_ with
  | false => exact h
  | true => exact spaced_of_open false l h

/-- A waiting host writes CMD only to an idle engine, and what follows waits for the busy period that may then open. -/
theorem spaced_of_cmdWrite (s : State) (addr : BitVec 5) (v : Word) (rest : List Input)
    (h : spaced s.engine.busy s.inputs = true) (hin : s.inputs = .access (.write addr v) :: rest)
    (ha : windowReg addr = .cmd) : s.engine.busy = false ∧ spaced true rest = true := by
  rw [hin, spaced_cmdWrite _ addr v rest ha] at h
  simpa using h

/-! ### What a CMD write does to the turns: nothing -/

theorem exec_inputs (i : Instr) (s t : State) (h : exec i s = .next t) : t.inputs = s.inputs := by
  cases i with
  | init =>
    rcases (execInit_next s t).1 h with ⟨-, rfl⟩ | ⟨-, rfl⟩
    · rfl
    · rfl
  | update b =>
    obtain ⟨-, -, hinputs, -⟩ := updateFrame b s t h
    exact hinputs
  | final =>
    obtain ⟨-, hinputs, -⟩ := finalFrame s t h
    exact hinputs

theorem discardIllegal_inputs (s t : State) (h : discardIllegal s = .next t) : t.inputs = s.inputs := by
  rcases (discardIllegal_next s t).1 h with ⟨-, rfl⟩ | ⟨-, rfl⟩
  · rfl
  · rfl

theorem engineTurn_inputs (s : State) : (engineTurn s).inputs = s.inputs := by
  rcases engineTurn_cases s with ⟨-, ht⟩ | ⟨-, ht⟩
  · rw [ht]
  · rw [ht, complete_inputs]

/-- A WAITIDLE that goes round again is still there for the busy period; one that ends has seen BUSY = 0. -/
theorem waitIdleTurn_spaced (n : Nat) (s : State) (h : spaced false s.inputs = true) :
    spaced (waitIdleTurn n s).engine.busy (waitIdleTurn n s).inputs = true := by
  rcases waitIdleTurn_cases n s with ⟨hb, ht⟩ | ⟨-, -, ht⟩ | ⟨-, k, -, ht⟩ <;> rw [ht]
  · rw [recordRead_engine, hb]
    exact h
  · exact h
  · exact h

/-- R245: a waiting host stays one. -/
theorem step_spaced (s t : State) (hs : spaced s.engine.busy s.inputs = true) (h : step s = .next t) :
    spaced t.engine.busy t.inputs = true := by
  rcases step_cases s t h with ⟨hin, rfl⟩ | ⟨i, rest, hin, ⟨_, _, rfl, -, rfl⟩ | ⟨addr, v, rfl, ha, rfl⟩ |
    ⟨addr, v, c, rfl, ha, -, he⟩ | ⟨addr, v, _, rfl, ha, -, he⟩ | ⟨n, rfl, rfl⟩ | ⟨rfl, rfl⟩ | ⟨hi, rfl⟩⟩
  · rw [engineTurn_inputs, hin]
    rfl
  · rw [hin] at hs
    exact hs
  · rw [hin, spaced_otherWrite _ addr v rest ha] at hs
    exact hs
  · rw [exec_inputs c _ t he]
    exact spaced_of_open _ rest (spaced_of_cmdWrite s addr v rest hs hin ha).2
  · rw [discardIllegal_inputs _ t he]
    exact spaced_of_open _ rest (spaced_of_cmdWrite s addr v rest hs hin ha).2
  · rw [hin] at hs
    exact waitIdleTurn_spaced n { s with inputs := rest } hs
  · rw [hin] at hs
    rw [engineTurn_idle, engineTurn_inputs]
    exact spaced_closed s.engine.busy rest hs
  · rw [hin] at hs
    rcases hi with rfl | rfl
    · exact hs
    · exact hs

/-- R245: a waiting host causes no CMD_WHILE_BUSY. -/
theorem step_spaced_faultLog (s t : State) (hs : spaced s.engine.busy s.inputs = true) (h : step s = .next t) :
    t.faultLog = s.faultLog ∨ ∃ c : Cause, c ≠ .cmdWhileBusy ∧ t.faultLog = s.faultLog ++ [c] := by
  rcases step_engine_cases s t h with ⟨-, hlog, -⟩ | ⟨-, -, hlog, -⟩ | ⟨-, -, hlog, -⟩ |
    ⟨v, c, ⟨addr, rest, hin, ha⟩, -, hlog, -, hbusy⟩ | ⟨_, -, -, -, -, hlog, -⟩ | ⟨_, _, _, -, -, -, -, -, -, -, hlog, -⟩ |
    ⟨_, _, -, -, -, -, -, -, -, hlog, -⟩
  · exact .inl hlog
  · exact .inl hlog
  · exact .inl hlog
  · refine .inr ⟨c, fun hc => ?_, hlog⟩
    obtain ⟨hidle, -⟩ := spaced_of_cmdWrite s addr v rest hs hin ha
    simp [hbusy hc] at hidle
  · exact .inl hlog
  · exact .inl hlog
  · exact .inl hlog

/-- Settles O44: the busy check of R100 needs BUSY = 1 at a CMD write, which spaced turns exclude. -/
theorem waitingHostNeverHitsABusyEngine : Obligations.WaitingHostNeverHitsABusyEngine := by
  unfold Obligations.WaitingHostNeverHitsABusyEngine
  exact fun s t hs h => ⟨step_spaced s t hs h, step_spaced_faultLog s t hs h⟩

end Sys2Proof.Machine
end

section
/-! PROOFS. The pseudo-instructions (30_encoding.md, section 4): ABSORB does not depend on how a message is split (R90, R126), and
HASH reads MD2 of its bytes (R89, R125). -/

namespace Sys2Proof.Machine

/-- Settles O55: ABSORB takes the bytes one by one. -/
theorem splittingAMessageChangesNothing : Obligations.SplittingAMessageChangesNothing := by
  unfold Obligations.SplittingAMessageChangesNothing
  refine ⟨fun chunks => ?_, rfl⟩
  induction chunks with
  | nil => rfl
  | cons bytes chunks ih =>
    rw [List.flatMap_cons, List.flatten_cons, ih]
    exact List.flatMap_append.symm

/-! ### Runs that record no fault -/

/-- A run from s to t in which no fault is recorded and the host's reads return the given words. -/
def CleanRun (s t : State) (words : List Word) : Prop :=
  ∃ k : Nat, runSteps k s = .next t ∧ t.faultLog = s.faultLog ∧ t.reads = s.reads ++ words

theorem CleanRun.refl (s : State) : CleanRun s s [] :=
  ⟨0, rfl, rfl, (List.append_nil _).symm⟩

theorem CleanRun.trans {s t u : State} {l m : List Word} (h : CleanRun s t l) (h' : CleanRun t u m) :
    CleanRun s u (l ++ m) := by
  obtain ⟨k, hrun, hlog, hreads⟩ := h
  obtain ⟨n, hrun', hlog', hreads'⟩ := h'
  refine ⟨k + n, (runSteps_add k n s t hrun).trans hrun', hlog'.trans hlog, ?_⟩
  rw [hreads', hreads, List.append_assoc]

theorem cleanRun_of_step (s t : State) (l : List Word) (h : step s = .next t) (hlog : t.faultLog = s.faultLog)
    (hreads : t.reads = s.reads ++ l) : CleanRun s t l :=
  ⟨1, runSteps_succ 0 s t h, hlog, hreads⟩

/-! ### CMDW -/

/-- CMDW of an accepted command: its effect, and the busy period is over behind the WAITIDLE (R89). -/
theorem cleanRun_cmdw (s : State) (i : Instr) (polls : Nat) (rest : List Input) (e : Engine) (msg : List Byte)
    (hin : s.inputs = asmCmdw polls (encode i) ++ rest)
    (hexec : exec i { s with inputs := .waitIdle polls :: rest } =
      .next (accepted { s with inputs := .waitIdle polls :: rest } e msg)) :
    ∃ (t : State) (polled : List Word), CleanRun s t polled ∧ t.engine = { e with busy := false } ∧ t.inputs = rest := by
  have hstep : step s = .next (accepted { s with inputs := .waitIdle polls :: rest } e msg) :=
    (step_command s _ _ _ i hin (windowReg_offset .cmd) ((decode_eq_ok_iff_encode _ i).2 rfl)).trans hexec
  have written : CleanRun s _ [] := cleanRun_of_step s _ [] hstep rfl (List.append_nil _).symm
  have waited : CleanRun (accepted { s with inputs := .waitIdle polls :: rest } e msg) _ _ :=
    ⟨polls + 2, runSteps_waitIdle rest polls _ rfl rfl, rfl, List.append_assoc _ _ _⟩
  exact ⟨_, _, written.trans waited, rfl, rfl⟩

/-! ### The three parts of HASH -/

/-- An idle engine without a fault that holds an open hash of m. -/
structure Engine.Hashing (e : Engine) (m : List Byte) : Prop where
  idle   : e.busy = false
  clear  : e.fault = false
  active : e.lc = .active
  holds  : e.Holds m

/-- An engine that holds a message has values in the elements it reads. -/
theorem written_of_holds (e : Engine) (m : List Byte) (h : e.Holds m) : e.Written := by
  obtain ⟨hstate, hcksum, -, hbuf⟩ := h
  intro _
  refine ⟨?_, ?_, fun i hi => ?_⟩
  · rw [hstate]
    exact ofBlock_ne_bot _
  · rw [hcksum]
    exact ofBlock_ne_bot _
  · rw [hbuf i hi]
    exact nofun

/-- CMDW INIT opens a hash on any idle engine (R111). -/
theorem cleanRun_init (s : State) (polls : Nat) (rest : List Input) (hb : s.engine.busy = false)
    (hin : s.inputs = asmCmdw polls (encode .init) ++ rest) :
    ∃ (t : State) (polled : List Word), CleanRun s t polled ∧ t.engine.Hashing [] ∧ t.inputs = rest := by
  obtain ⟨t, polled, hrun, he, hrest⟩ := cleanRun_cmdw s .init polls rest (doInit s.engine) [] hin (execInit_idle _ hb)
  refine ⟨t, polled, hrun, ?_, hrest⟩
  rw [he]
  exact ⟨rfl, rfl, rfl, holds_congr _ _ [] rfl rfl rfl rfl (doInit_holds s.engine)⟩

/-- CMDW UPDATE takes one byte into an open hash (R115). -/
theorem cleanRun_update (s : State) (m : List Byte) (b : TimedByte) (rest : List Input) (h : s.engine.Hashing m)
    (hin : s.inputs = asmCmdw b.polls (encode (.update b.byte)) ++ rest) :
    ∃ (t : State) (polled : List Word), CleanRun s t polled ∧ t.engine.Hashing (m ++ [b.byte]) ∧ t.inputs = rest := by
  obtain ⟨hb, hf, hl, hm⟩ := h
  obtain ⟨e, hu⟩ := doUpdate_of_written b.byte s.engine (written_of_holds s.engine m hm) hl
  obtain ⟨hlc, hfault, -⟩ := doUpdate_keeps b.byte s.engine e hu
  obtain ⟨t, polled, hrun, he, hrest⟩ := cleanRun_cmdw s (.update b.byte) b.polls rest e (s.message ++ [b.byte]) hin
    (exec_update_accepted b.byte { s with inputs := .waitIdle b.polls :: rest } e hb hf hl hu)
  refine ⟨t, polled, hrun, ?_, hrest⟩
  rw [he]
  exact ⟨rfl, hfault.trans hf, hlc.trans hl, holds_congr e _ _ rfl rfl rfl rfl (doUpdate_holds b.byte s.engine e m hu hm)⟩

/-- ABSORB takes its bytes into an open hash (R90). -/
theorem cleanRun_absorb (bytes : List TimedByte) (rest : List Input) :
    ∀ (s : State) (m : List Byte), s.engine.Hashing m → s.inputs = asmAbsorb bytes ++ rest →
      ∃ (t : State) (polled : List Word), CleanRun s t polled ∧ t.engine.Hashing (m ++ bytes.map TimedByte.byte) ∧
        t.inputs = rest := by
  induction bytes with
  | nil =>
    intro s m h hin
    rw [List.map_nil, List.append_nil]
    exact ⟨s, [], CleanRun.refl s, h, hin⟩
  | cons b bytes ih =>
    intro s m h hin
    have hin' : s.inputs = asmCmdw b.polls (encode (.update b.byte)) ++ (asmAbsorb bytes ++ rest) := by
      rw [hin, asmAbsorb, List.flatMap_cons, List.append_assoc]
      rfl
    obtain ⟨t, polled, hrun, ht, hrest⟩ := cleanRun_update s m b _ h hin'
    obtain ⟨u, polled', hrun', hu, hrest'⟩ := ih t _ ht hrest
    refine ⟨u, polled ++ polled', hrun.trans hrun', ?_, hrest'⟩
    rwa [List.map_cons, List.append_cons]

/-- CMDW FINAL leaves the digest in STATE (R120 to R125). -/
theorem cleanRun_final (s : State) (m : List Byte) (polls : Nat) (rest : List Input) (h : s.engine.Hashing m)
    (hin : s.inputs = asmCmdw polls (encode .final) ++ rest) :
    ∃ (t : State) (polled : List Word), CleanRun s t polled ∧ t.engine.lc = .finalized ∧ t.engine.busy = false ∧
      t.engine.fault = false ∧ t.engine.state = ofBlock (md2 m) ∧ t.inputs = rest := by
  obtain ⟨hb, hf, hl, hm⟩ := h
  obtain ⟨e, hu⟩ := doFinal_of_written s.engine (written_of_holds s.engine m hm) hl
  obtain ⟨hlc, -, hfault, -⟩ := doFinal_keeps s.engine e hu
  obtain ⟨t, polled, hrun, he, hrest⟩ := cleanRun_cmdw s .final polls rest e s.message hin
    (exec_final_accepted { s with inputs := .waitIdle polls :: rest } e hb hf hl hu)
  refine ⟨t, polled, hrun, ?_⟩
  rw [he]
  exact ⟨hlc, rfl, hfault.trans hf, doFinal_md2 s.engine e m hu hm, hrest⟩

/-! ### RDDIGEST -/

/-- The word that DIGESTn shows of the digest d (R56). -/
def digestWord (d : Block) (n : Fin 4) : Word := lanesWord d[4 * n.val] d[4 * n.val + 1] d[4 * n.val + 2] d[4 * n.val + 3]

/-- Reads of DIGEST words of an open view return the words of the digest and leave the engine. -/
theorem cleanRun_digest (d : Block) (rest : List Input) (words : List (Fin 4)) :
    ∀ s : State, digestOpen s.engine = true → s.engine.state = ofBlock d →
      s.inputs = words.map (fun n => asmLw (.digest n)) ++ rest →
      ∃ t : State, CleanRun s t (words.map (digestWord d)) ∧ t.engine = s.engine ∧ t.inputs = rest := by
  induction words with
  | nil => exact fun s _ _ hin => ⟨s, CleanRun.refl s, rfl, hin⟩
  | cons n words ih =>
    intro s hopen hd hin
    let read := recordRead { s with inputs := words.map (fun n => asmLw (.digest n)) ++ rest } (digestWord d n)
    have hstep : step s = .next read := by
      rw [step_cons s _ _ hin]
      apply hostRead_of_readWindow
      rw [windowReg_offset]
      exact readWindow_digest_open s.engine n d hopen hd
    obtain ⟨t, hrun, he, hrest⟩ := ih read hopen hd rfl
    exact ⟨t, (cleanRun_of_step s _ [digestWord d n] hstep rfl rfl).trans hrun, he, hrest⟩

/-- Settles O54: INIT opens the hash of the empty message whatever the registers hold, ABSORB and FINAL go on from there, and the
view is open when it is read. -/
theorem hashReadsMd2OfItsBytes : Obligations.HashReadsMd2OfItsBytes := by
  unfold Obligations.HashReadsMd2OfItsBytes
  intro s initPolls finalPolls bytes rest hb hin d
  simp only [asmHash, List.append_assoc] at hin
  obtain ⟨s1, polled1, run1, hash1, in1⟩ := cleanRun_init s initPolls _ hb hin
  obtain ⟨s2, polled2, run2, hash2, in2⟩ := cleanRun_absorb bytes _ s1 [] hash1 in1
  obtain ⟨s3, polled3, run3, hl, hb3, hf, hd, in3⟩ := cleanRun_final s2 _ finalPolls _ hash2 in2
  obtain ⟨t, run4, he, hrest⟩ := cleanRun_digest d rest (List.finRange 4) s3 ((digestOpen_eq_true _).2 ⟨hl, hb3⟩) hd in3
  obtain ⟨k, hrun, hlog, hreads⟩ := ((run1.trans run2).trans run3).trans run4
  rw [← he] at hl hb3 hf
  exact ⟨k, t, _, hrun, hrest, hl, hb3, hf, hlog, hreads.trans (List.append_assoc _ _ _).symm⟩

end Sys2Proof.Machine
end
